-- ==== Sys2Proof/Word.lean ====
section
/-!
DEFINITION. The two word types of moon_field CORE: the byte that carries every operand, result and table entry
(R9), and the 24-bit request word (R60). Bit 0 is the least significant bit (R10); every value is unsigned (R11).
-/
namespace Sys2Proof

/-- One operand, result or table entry: 8 bits, unsigned (R9, R11). -/
abbrev Byte := BitVec 8

/-- One request as it stands on the port `req[23:0]` (R23, R60). -/
abbrev ReqWord := BitVec 24

end Sys2Proof
end

