-- ==== Sys2Proof/Syntax.lean ====
section
/-!
DEFINITION. The 30 operations of the command map (R63), one constructor per row of spec/opcode_table.json. A
constructor carries the operand bytes its row uses; a byte the row does not use is ignored by the block (R64) and is
no part of the instruction.
-/
namespace Sys2Proof

/-- One operation with its operand bytes, in the order of R63's table. -/
inductive Instr where
  -- GF(2), fld = 0
  | gf2Isz (a : Byte)
  | gf2Add (a b : Byte)
  | gf2Mul (a b : Byte)
  | gf2Neg (a : Byte)
  | gf2Inv (a : Byte)
  -- F3, fld = 1
  | f3Isz (a : Byte)
  | f3Add (a b : Byte)
  | f3Mul (a b : Byte)
  | f3Neg (a : Byte)
  | f3Inv (a : Byte)
  -- GF(251), fld = 2
  | p251Isz (a : Byte)
  | p251Add (a b : Byte)
  | p251Mul (a b : Byte)
  | p251Neg (a : Byte)
  | p251Inv (a : Byte)
  -- GF(2^8), fld = 3
  | f256Isz (a : Byte)
  | f256Add (a b : Byte)
  | f256Mul (a b : Byte)
  | f256Neg (a : Byte)
  | f256Inv (a : Byte)
  | f256Inv2 (a : Byte)
  | f256Inv2f (a : Byte)
  | f256Sub (a b : Byte)
  | f256Div (a b : Byte)
  | f256Mul2 (a b : Byte)
  | f256Pow (a e : Byte)
  | f256Pow2 (a e : Byte)
  | f256Log (a : Byte)
  | f256Exp (e : Byte)
  | f256Tgen
deriving DecidableEq, Repr

end Sys2Proof
end

