-- ==== Sys2Proof/Decode.lean ====
section
/-!
DEFINITION. Decoding a request word (R60, R61, R65): total on all 2^24 words, a word that selects no operation is
rejected by name. After it the encoder, from the same rules, and the assembler of R69.
-/
namespace Sys2Proof

/-! ### The fields of a request -/

/-- `cmd = req[23:16]` (R60). -/
def commandOf (w : ReqWord) : Byte := w.extractLsb' 16 8

/-- `a = req[15:8]` (R60). -/
def operandAOf (w : ReqWord) : Byte := w.extractLsb' 8 8

/-- `b = req[7:0]` (R60). -/
def operandBOf (w : ReqWord) : Byte := w.extractLsb' 0 8

/-- `rsv = cmd[7:6]` (R61). -/
def reservedOf (cmd : Byte) : BitVec 2 := cmd.extractLsb' 6 2

/-- `fld = cmd[5:4]` (R61). -/
def fieldOf (cmd : Byte) : BitVec 2 := cmd.extractLsb' 4 2

/-- `fn = cmd[3:0]` (R61). -/
def functionOf (cmd : Byte) : BitVec 4 := cmd.extractLsb' 0 4

/-! ### The decoder -/

/-- Why a request word selects no operation (R66). Either way the block answers (ILLEGAL, 0x00). -/
inductive DecodeError where
  | reservedBits         -- `cmd[7:6] ≠ 00`
  | unassignedFunction   -- the field has no operation with this function code
deriving DecidableEq, Repr

/-- `fld = 0`: the GF(2) operations (R63). -/
def decodeGf2 (a b : Byte) : Nat → Except DecodeError Instr
  | 0 => .ok (.gf2Isz a)
  | 1 => .ok (.gf2Add a b)
  | 2 => .ok (.gf2Mul a b)
  | 3 => .ok (.gf2Neg a)
  | 4 => .ok (.gf2Inv a)
  | _ => .error .unassignedFunction

/-- `fld = 1`: the F3 operations (R63). -/
def decodeF3 (a b : Byte) : Nat → Except DecodeError Instr
  | 0 => .ok (.f3Isz a)
  | 1 => .ok (.f3Add a b)
  | 2 => .ok (.f3Mul a b)
  | 3 => .ok (.f3Neg a)
  | 4 => .ok (.f3Inv a)
  | _ => .error .unassignedFunction

/-- `fld = 2`: the GF(251) operations (R63). -/
def decodeP251 (a b : Byte) : Nat → Except DecodeError Instr
  | 0 => .ok (.p251Isz a)
  | 1 => .ok (.p251Add a b)
  | 2 => .ok (.p251Mul a b)
  | 3 => .ok (.p251Neg a)
  | 4 => .ok (.p251Inv a)
  | _ => .error .unassignedFunction

/-- `fld = 3`: the GF(2^8) operations (R63). -/
def decodeF256 (a b : Byte) : Nat → Except DecodeError Instr
  | 0 => .ok (.f256Isz a)
  | 1 => .ok (.f256Add a b)
  | 2 => .ok (.f256Mul a b)
  | 3 => .ok (.f256Neg a)
  | 4 => .ok (.f256Inv a)
  | 5 => .ok (.f256Inv2 a)
  | 6 => .ok (.f256Inv2f a)
  | 7 => .ok (.f256Sub a b)
  | 8 => .ok (.f256Div a b)
  | 9 => .ok (.f256Mul2 a b)
  | 10 => .ok (.f256Pow a b)
  | 11 => .ok (.f256Pow2 a b)
  | 12 => .ok (.f256Log a)
  | 13 => .ok (.f256Exp a)
  | 14 => .ok .f256Tgen
  | _ => .error .unassignedFunction

/-- The operation a command byte selects, given the two operand bytes (R65). -/
def decodeCommand (cmd a b : Byte) : Except DecodeError Instr :=
  if reservedOf cmd ≠ 0 then .error .reservedBits
  else
    match (fieldOf cmd).toNat with
    | 0 => decodeGf2 a b (functionOf cmd).toNat
    | 1 => decodeF3 a b (functionOf cmd).toNat
    | 2 => decodeP251 a b (functionOf cmd).toNat
    | _ => decodeF256 a b (functionOf cmd).toNat

/-- `decode(req)` of R65. -/
def decode (w : ReqWord) : Except DecodeError Instr :=
  decodeCommand (commandOf w) (operandAOf w) (operandBOf w)

/-! ### The encoder -/

/-- The command byte of an operation (R63, column "cmd"). -/
def Instr.command : Instr → Byte
  | .gf2Isz _ => 0x00
  | .gf2Add _ _ => 0x01
  | .gf2Mul _ _ => 0x02
  | .gf2Neg _ => 0x03
  | .gf2Inv _ => 0x04
  | .f3Isz _ => 0x10
  | .f3Add _ _ => 0x11
  | .f3Mul _ _ => 0x12
  | .f3Neg _ => 0x13
  | .f3Inv _ => 0x14
  | .p251Isz _ => 0x20
  | .p251Add _ _ => 0x21
  | .p251Mul _ _ => 0x22
  | .p251Neg _ => 0x23
  | .p251Inv _ => 0x24
  | .f256Isz _ => 0x30
  | .f256Add _ _ => 0x31
  | .f256Mul _ _ => 0x32
  | .f256Neg _ => 0x33
  | .f256Inv _ => 0x34
  | .f256Inv2 _ => 0x35
  | .f256Inv2f _ => 0x36
  | .f256Sub _ _ => 0x37
  | .f256Div _ _ => 0x38
  | .f256Mul2 _ _ => 0x39
  | .f256Pow _ _ => 0x3A
  | .f256Pow2 _ _ => 0x3B
  | .f256Log _ => 0x3C
  | .f256Exp _ => 0x3D
  | .f256Tgen => 0x3E

/-- The mnemonic of an operation (R63, column "mnemonic"), written apart from the assembler's rows below. -/
def Instr.mnemonic : Instr → String
  | .gf2Isz _ => "GF2.ISZ"
  | .gf2Add _ _ => "GF2.ADD"
  | .gf2Mul _ _ => "GF2.MUL"
  | .gf2Neg _ => "GF2.NEG"
  | .gf2Inv _ => "GF2.INV"
  | .f3Isz _ => "F3.ISZ"
  | .f3Add _ _ => "F3.ADD"
  | .f3Mul _ _ => "F3.MUL"
  | .f3Neg _ => "F3.NEG"
  | .f3Inv _ => "F3.INV"
  | .p251Isz _ => "P251.ISZ"
  | .p251Add _ _ => "P251.ADD"
  | .p251Mul _ _ => "P251.MUL"
  | .p251Neg _ => "P251.NEG"
  | .p251Inv _ => "P251.INV"
  | .f256Isz _ => "F256.ISZ"
  | .f256Add _ _ => "F256.ADD"
  | .f256Mul _ _ => "F256.MUL"
  | .f256Neg _ => "F256.NEG"
  | .f256Inv _ => "F256.INV"
  | .f256Inv2 _ => "F256.INV2"
  | .f256Inv2f _ => "F256.INV2F"
  | .f256Sub _ _ => "F256.SUB"
  | .f256Div _ _ => "F256.DIV"
  | .f256Mul2 _ _ => "F256.MUL2"
  | .f256Pow _ _ => "F256.POW"
  | .f256Pow2 _ _ => "F256.POW2"
  | .f256Log _ => "F256.LOG"
  | .f256Exp _ => "F256.EXP"
  | .f256Tgen => "F256.TGEN"

/-- The operand bytes an operation uses, first `a`, then `b` (R63, column "uses"). -/
def Instr.operands : Instr → List Byte
  | .gf2Isz a | .gf2Neg a | .gf2Inv a => [a]
  | .gf2Add a b | .gf2Mul a b => [a, b]
  | .f3Isz a | .f3Neg a | .f3Inv a => [a]
  | .f3Add a b | .f3Mul a b => [a, b]
  | .p251Isz a | .p251Neg a | .p251Inv a => [a]
  | .p251Add a b | .p251Mul a b => [a, b]
  | .f256Isz a | .f256Neg a | .f256Inv a | .f256Inv2 a | .f256Inv2f a | .f256Log a | .f256Exp a => [a]
  | .f256Add a b | .f256Mul a b | .f256Sub a b | .f256Div a b | .f256Mul2 a b => [a, b]
  | .f256Pow a e | .f256Pow2 a e => [a, e]
  | .f256Tgen => []

/-- The word `{cmd, a, b}` (R60). -/
def requestWord (cmd a b : Byte) : ReqWord := cmd ++ a ++ b

/-- The request word of an instruction. An operand byte the operation does not use is written 0x00 (R69). -/
def encode (i : Instr) : ReqWord :=
  requestWord i.command (i.operands.getD 0 0x00) (i.operands.getD 1 0x00)

/-- The bits of the request word that can matter to an instruction: the command byte and the operand bytes it uses
(R64). -/
def Instr.usedBits (i : Instr) : ReqWord :=
  match i.operands.length with
  | 0 => 0xFF0000
  | 1 => 0xFFFF00
  | _ => 0xFFFFFF

/-! ### The host's numbering of spec/opcode_table.json -/

/-- A request whose bits are `w` in its low `nbits` bits and 0 above them. The table numbers a request as R60 does:
one word of 24 bits, bit 0 the least significant. -/
def tableRequest (nbits w : Nat) : ReqWord := BitVec.ofNat 24 (w % 2 ^ nbits)

/-- The instruction the decoder reads from that request; none where it refuses. -/
def decodeTableWord (nbits w : Nat) : Option Instr :=
  match decode (tableRequest nbits w) with
  | .ok i => some i
  | .error _ => none

/-! ### The assembler (R69) -/

/-- One row of R63 as the assembler reads it: the mnemonic, the command byte, and how many operands the operation
uses. -/
structure AsmRow where
  mnemonic : String
  cmd : Byte
  uses : Nat
deriving DecidableEq, Repr

/-- R63's rows, first the GF2, F3 and P251 ones. -/
def asmSmallFields : List AsmRow :=
  [⟨"GF2.ISZ", 0x00, 1⟩, ⟨"GF2.ADD", 0x01, 2⟩, ⟨"GF2.MUL", 0x02, 2⟩, ⟨"GF2.NEG", 0x03, 1⟩, ⟨"GF2.INV", 0x04, 1⟩,
   ⟨"F3.ISZ", 0x10, 1⟩, ⟨"F3.ADD", 0x11, 2⟩, ⟨"F3.MUL", 0x12, 2⟩, ⟨"F3.NEG", 0x13, 1⟩, ⟨"F3.INV", 0x14, 1⟩,
   ⟨"P251.ISZ", 0x20, 1⟩, ⟨"P251.ADD", 0x21, 2⟩, ⟨"P251.MUL", 0x22, 2⟩, ⟨"P251.NEG", 0x23, 1⟩,
   ⟨"P251.INV", 0x24, 1⟩]

/-- R63's rows for F256. -/
def asmF256 : List AsmRow :=
  [⟨"F256.ISZ", 0x30, 1⟩, ⟨"F256.ADD", 0x31, 2⟩, ⟨"F256.MUL", 0x32, 2⟩, ⟨"F256.NEG", 0x33, 1⟩,
   ⟨"F256.INV", 0x34, 1⟩, ⟨"F256.INV2", 0x35, 1⟩, ⟨"F256.INV2F", 0x36, 1⟩, ⟨"F256.SUB", 0x37, 2⟩,
   ⟨"F256.DIV", 0x38, 2⟩, ⟨"F256.MUL2", 0x39, 2⟩, ⟨"F256.POW", 0x3A, 2⟩, ⟨"F256.POW2", 0x3B, 2⟩,
   ⟨"F256.LOG", 0x3C, 1⟩, ⟨"F256.EXP", 0x3D, 1⟩, ⟨"F256.TGEN", 0x3E, 0⟩]

/-- The whole map, 30 rows. -/
def asmRows : List AsmRow := asmSmallFields ++ asmF256

/-- A line `<mnemonic> <a>[, <b>]` as a request word (R69): an operand that is not written is 0x00. None: an unknown
mnemonic, an operand missing that the operation uses, or more than two operands. -/
def assemble (mnemonic : String) (operands : List Byte) : Option ReqWord :=
  match asmRows.find? (fun row => row.mnemonic == mnemonic) with
  | none => none
  | some row =>
    if row.uses ≤ operands.length ∧ operands.length ≤ 2 then
      some (requestWord row.cmd (operands.getD 0 0x00) (operands.getD 1 0x00))
    else none

end Sys2Proof
end

