-- ==== Sys2Proof/Config.lean ====
section
/-!
DEFINITION. The one parameter of the block (R8, R121): what P251.ISZ, P251.NEG and P251.INV do with an operand
byte in 251..255. The fixed constants of R7 (0x11B, the generator 3, the modulus 251) are no parameters and stand
beside the operations that use them, in Machine/.
-/
namespace Sys2Proof

/-- `P251_OOR` (R8, R121): MF leaves the point open, so the spec makes it a parameter with these two values. -/
inductive OorPolicy where
  | fault       -- the request ends in (DOMAIN, 0x00)
  | normalize   -- the operand is first reduced modulo 251
deriving DecidableEq, Repr

/-- The configuration of one block: fixed for its life and unaffected by reset (R37, R201). -/
structure Config where
  /-- `P251_OOR` (R8). -/
  p251Oor : OorPolicy
deriving DecidableEq, Repr

/-- The configuration with the default the spec names: `P251_OOR = FAULT` (R8). -/
def Config.standard : Config := { p251Oor := .fault }

end Sys2Proof
end

