-- ==== Sys2Proof/Machine/Memory.lean ====
section
/-!
DEFINITION. The two table memories of the block (R40) as plain data: a list of (index, byte) cells in one canonical
form, indices strictly rising and below the memory's size. An unlisted index reads as no value: the content of a table
before `GenTables()` is unspecified and unreadable (R36, R201; assumption 3), so a cell that nothing has written holds
no byte a proof could lean on.
-/
namespace Sys2Proof.Machine

/-- A table memory: the cells that have been written, by index. -/
abbrev Memory := List Host.Cell

/-- The byte at an index (R42); none where nothing has been written. -/
def Memory.read : Memory → Nat → Option Byte
  | [], _ => none
  | c :: rest, i => bif Nat.beq c.1 i then some c.2 else Memory.read rest i

/-- Store one byte at an index (R43), keeping the indices strictly rising. -/
def Memory.write : Memory → Nat → Byte → Memory
  | [], i, v => [(i, v)]
  | c :: rest, i, v =>
    bif Nat.blt c.1 i then c :: Memory.write rest i v
    else bif Nat.beq c.1 i then (i, v) :: rest
    else (i, v) :: c :: rest

/-- Indices strictly rising, from `low` on, and below `size`. -/
def Memory.wfFrom (low size : Nat) : Memory → Bool
  | [] => true
  | c :: rest => decide (low ≤ c.1) && decide (c.1 < size) && Memory.wfFrom (c.1 + 1) size rest

/-- The canonical form of a memory of `size` entries: indices strictly rising and below `size`. -/
def Memory.wf (size : Nat) (m : Memory) : Bool := m.wfFrom 0 size

/-- How many entries `EXP` has: indices 0..254, there is no `EXP[255]` (R31). -/
def expSize : Nat := 255

/-- How many entries `LOG` has: indices 0..255 (R32). -/
def logSize : Nat := 256

end Sys2Proof.Machine
end

