-- ==== Sys2Proof/Machine/State.lean ====
section
/-!
DEFINITION. The state of the machine as plain data. The block's own state is `TABLE_READY`, `EXP` and `LOG` and nothing
else (R35, R36): no registers, no program counter, no flags, no modes (R21, R22, R27, R34, R190). Beside it stand the
configuration (R8), the host's side of the request port (what it presents next) and of the response port (what it has
been answered), so that one step is a function of the state.
-/
namespace Sys2Proof.Machine

/-- What the host can do to the block (R20, R25): present a request, or apply reset between two requests. -/
inductive HostEvent where
  | request (w : ReqWord)
  | reset
deriving DecidableEq, Repr

/-- The four statuses of a response (R26, R180). -/
inductive Status where
  | ok        -- the operation produced the result `r` (R181)
  | absent    -- no inverse, or a zero divisor: a result, not a fault (R182)
  | domain    -- an operand outside the domain the operation accepts (R183)
  | illegal   -- the command byte selects no operation (R184)
deriving DecidableEq, Repr

/-- One response on the response port: the status `st` and the result byte `r` (R24). -/
structure Response where
  st : Status
  r : Byte
deriving DecidableEq, Repr

/-- The reasons a step can stop with a fault. The block itself never stops (R207): its faults DOMAIN and ILLEGAL are
responses, after which it goes on (R187, R188). The three below are raised only by the table reads of Machine/Ops.lean, for
a read the spec says cannot happen; no state that meets `State.Inv` reaches one. Each is SAFE: the model stops where
the spec gives no byte. -/
inductive Fault where
  /-- A read of a table while `TABLE_READY = 0` (R33, R42: "a read happens only when `TABLE_READY = 1`"). Safe. -/
  | tablesNotReady
  /-- A read at an index the table does not offer: `EXP[255]` and above, `LOG[0]`, `LOG[256]` and above (R42, R45).
  Safe. -/
  | noSuchEntry (index : Nat)
  /-- A read of a cell nothing has written although `TABLE_READY = 1` (R31, R32 exclude it). Safe. -/
  | cellUnwritten (index : Nat)
deriving DecidableEq, Repr

/-- The reasons a step can be refused. Every operation has its meaning, so no step of this model is refused. -/
inductive Refusal where
  /-- Raised by exec for an instruction that has no meaning yet: none is left. Safe: the machine goes no further. -/
  | notModelled (mnemonic : String)
deriving DecidableEq, Repr

/-- The state: plain data, comparable and printable. -/
structure State where
  /-- The configuration of the block, fixed for its life (R8, R37; assumption 1). -/
  config : Config
  /-- `TABLE_READY` (R30), shown on the output `tbl_rdy` (R25). -/
  tableReady : Bool
  /-- `EXP`, 255 entries (R31). -/
  exp : Memory
  /-- `LOG`, 256 entries (R32). -/
  log : Memory
  /-- The model's own: what the host presents to the block from here on, the next event first (R37: "the sequence of
  requests is an input of the step relation"; assumption 2). -/
  input : List HostEvent
  /-- The model's own: the responses the block has given so far, oldest first (R24; assumption 2). -/
  responses : List Response
deriving DecidableEq, Repr

/-- The machine right after reset (R36, R200, R201), with the default configuration (R8), nothing presented yet and
nothing answered yet. The bytes of `EXP` and `LOG` are unspecified: no cell is listed (assumption 3). -/
def State.reset : State where
  config := Config.standard
  tableReady := false
  exp := []
  log := []
  input := []
  responses := []

end Sys2Proof.Machine
end

