-- ==== Sys2Proof/Machine/Flags.lean ====
section
/-!
DEFINITION. The block has no flags, condition codes or predicates (R27): no operation leaves anything a later one
reads. What stands here is what other machines compute with flags: the status codes of the response port (R26), the
byte a boolean result is returned in (R82), and the output `tbl_rdy` (R25).
-/
namespace Sys2Proof.Machine

/-- The code of a status on the port `st[1:0]` (R26). -/
def Status.code : Status → BitVec 2
  | .ok => 0
  | .absent => 1
  | .domain => 2
  | .illegal => 3

/-- DOMAIN and ILLEGAL are faults; ABSENT is an expected result (R26, R182, R183). -/
def Status.isFault : Status → Bool
  | .ok | .absent => false
  | .domain | .illegal => true

/-- A boolean result: 0x01 for true, 0x00 for false (R82). -/
def boolByte (p : Bool) : Byte := if p then 0x01 else 0x00

/-- The level output `tbl_rdy`, always equal to `TABLE_READY` (R25). -/
def State.tblRdy (s : State) : BitVec 1 := if s.tableReady then 1 else 0

end Sys2Proof.Machine
end

