-- ==== Sys2Proof/Machine/Operands.lean ====
section
/-!
DEFINITION. The operand forms: a request carries its operands by value, as unsigned bytes, and has no addressing modes
(R64, R97). What an operand byte may be is the domain its operation accepts for it (R80 step 2), the first rule of
each family.
-/
namespace Sys2Proof.Machine

/-- Zero extension to the 16 bits the intermediates are held in (R11, R95). -/
def zext16 (x : Byte) : BitVec 16 := x.zeroExtend 16

/-- A GF(2) operand: 0x00 or 0x01 (R100). -/
def gf2Valid (x : Byte) : Bool := decide (x ≤ 0x01)

/-- An F3 operand: 0x00, 0x01 or 0xFF (R110). -/
def f3Valid (x : Byte) : Bool := x == 0x00 || x == 0x01 || x == 0xFF

/-- The operand of P251.ISZ, NEG and INV after the out-of-range policy, `OOR(a)` of R121: 0..250 as it stands; 251..255
refused under `FAULT`, reduced modulo 251 under `NORMALIZE`. ADD and MUL take every byte as it stands (R120). -/
def p251Operand (policy : OorPolicy) (a : Byte) : Option Byte :=
  if a ≤ 250 then some a
  else
    match policy with
    | .fault => none
    | .normalize => some (a % 251)

/-- The operand of F256.LOG: a nonzero element (R150, R156). -/
def logOperandValid (a : Byte) : Bool := a != 0x00

/-- The operand of F256.EXP: an exponent 0..254 (R150, R157). -/
def expOperandValid (e : Byte) : Bool := decide (e ≤ 254)

end Sys2Proof.Machine
end

