-- ==== Sys2Proof/Machine/PolyMul.lean ====
section
/-!
DEFINITION. `PolyMul(x, y)`, the shift-and-reduce multiplier of GF(2^8) (R131), and its two constants (R7).
-/
namespace Sys2Proof.Machine

/-- The reducing polynomial `x^8+x^4+x^3+x+1` (R7). -/
def reducer : BitVec 16 := 0x011B

/-- The generator `g = 3` (R7). -/
def generator : Byte := 0x03

/-- The first loop of R131, bits `i-1` down to 0 of `y`: XOR-accumulate `x` shifted left by each set bit's index. -/
def accumulate (x y : Byte) : Nat → BitVec 16 → BitVec 16
  | 0, acc => acc
  | i + 1, acc => accumulate x y i (if y.getLsbD i then acc ^^^ (zext16 x <<< i) else acc)

/-- The second loop of R131, with at most as many passes as the first argument says: align the reducer to the highest
set bit above bit 7 and XOR, until the accumulator fits in 8 bits. -/
def reduceLoop : Nat → BitVec 16 → BitVec 16
  | 0, acc => acc
  | n + 1, acc => if 0x0100 ≤ acc then reduceLoop n (acc ^^^ (reducer <<< (acc.toNat.log2 - 8))) else acc

/-- `PolyMul(x, y)` (R131). Eight passes are enough for any 16-bit accumulator, since each clears the highest set bit
and changes only lower ones; R131 needs at most seven. -/
def polyMul (x y : Byte) : Byte := (reduceLoop 8 (accumulate x y 8 0)).truncate 8

end Sys2Proof.Machine
end

