-- ==== Sys2Proof/Machine/Ops.lean ====
section
/-!
DEFINITION. The shared operations of the machine: responding, raising a fault (the block's only "exception", which
saves nothing and goes nowhere: R187; there is no return from it: R188), the domain check of R80 step 2, the table
reads and writes (R42, R43), and the table generator (R151, R152).
-/
namespace Sys2Proof.Machine

/-! ### Responses -/

/-- `respond(S, v)` (R12): one more response on the port, nothing else changes (R24, R27). -/
def State.respond (s : State) (st : Status) (v : Byte) : State :=
  { s with responses := s.responses ++ [{ st := st, r := v }] }

/-- `respond(OK, v)`: a present result (R13, R181). -/
def State.respondOk (s : State) (v : Byte) : State := s.respond .ok v

/-- `respond(ABSENT, 0x00)`: MF's absent result (R13, R182). -/
def State.respondAbsent (s : State) : State := s.respond .absent 0x00

/-- Taking a fault: it is reported on the response of the request that caused it, with `r = 0x00`, and on nothing else;
it saves nothing, changes no state, and control goes nowhere (R183, R184, R187). -/
def State.raise (s : State) (st : Status) : State := s.respond st 0x00

/-- `raise Domain` (R12, R183). -/
def State.raiseDomain (s : State) : State := s.raise .domain

/-- `raise Illegal` (R12, R184). -/
def State.raiseIllegal (s : State) : State := s.raise .illegal

/-- Step 2 of R80: the domain check of the used operands comes before anything the operation does. -/
def checkDomain (inDomain : Bool) (s : State) (run : Host.Outcome State Fault Refusal) :
    Host.Outcome State Fault Refusal :=
  if inDomain then run else .next s.raiseDomain

/-- The end of an operation that yields a present result and a state, or that a table read stopped. -/
def finish : Except Fault (Byte × State) → Host.Outcome State Fault Refusal
  | .ok (v, s) => .next (s.respondOk v)
  | .error f => .fault f

/-- The end of a search: the candidate found is the present result; finding none is the absent one (R84, R137). -/
def finishSearch (found : Option Byte) (s : State) : Host.Outcome State Fault Refusal :=
  match found with
  | some x => .next (s.respondOk x)
  | none => .next s.respondAbsent

/-- The first of the bytes 0, 1, …, n-1 with a property, in ascending order: the brute-force searches of R126, R137. -/
def searchAscending (n : Nat) (p : Byte → Bool) : Option Byte :=
  ((List.range n).map (BitVec.ofNat 8)).find? p

/-- Apply a step `n` times (the `repeat` loops of R138 and R162). -/
def repeatTimes (n : Nat) (f : Byte → Byte) (acc : Byte) : Byte :=
  match n with
  | 0 => acc
  | n + 1 => repeatTimes n f (f acc)

/-! ### Table access -/

/-- The byte a table cell holds; a cell nothing has written holds none. -/
def cellValue (m : Memory) (i : Nat) : Except Fault Byte :=
  match m.read i with
  | some v => .ok v
  | none => .error (.cellUnwritten i)

/-- `EXP[i]` (R42): only while `TABLE_READY = 1`, only for an index 0..254. -/
def State.readExp (s : State) (i : Nat) : Except Fault Byte :=
  if s.tableReady then
    if i ≤ 254 then cellValue s.exp i else .error (.noSuchEntry i)
  else .error .tablesNotReady

/-- `LOG[t]` (R42): only while `TABLE_READY = 1`, only for an index 1..255; `LOG[0]` is never read. -/
def State.readLog (s : State) (t : Nat) : Except Fault Byte :=
  if s.tableReady then
    if 1 ≤ t ∧ t ≤ 255 then cellValue s.log t else .error (.noSuchEntry t)
  else .error .tablesNotReady

/-- `EXP[i] <- v` (R43). -/
def State.writeExp (s : State) (i : Nat) (v : Byte) : State := { s with exp := s.exp.write i v }

/-- `LOG[t] <- v` (R43). -/
def State.writeLog (s : State) (t : Nat) (v : Byte) : State := { s with log := s.log.write t v }

/-! ### The table generator -/

/-- The loop of R151 with `n` passes left, the running power being `v`: pass `i = 255 - n` writes `EXP[i] <- v` and
`LOG[v] <- i`, then multiplies `v` by the generator. -/
def genLoop : Nat → Byte → State → State
  | 0, _, s => s
  | n + 1, v, s =>
    genLoop n (polyMul v generator) ((s.writeExp (254 - n) v).writeLog v.toNat (BitVec.ofNat 8 (254 - n)))

/-- `GenTables()` (R151): 255 passes from `g^0 = 1`, then `LOG[0] <- 0` and `TABLE_READY <- 1`, all in one step (R46). -/
def genTables (s : State) : State :=
  { (genLoop 255 0x01 s).writeLog 0 0x00 with tableReady := true }

/-- `EnsureTables()` (R152): build the tables unless they are built. -/
def ensureTables (s : State) : State := if s.tableReady then s else genTables s

/-! ### Reset -/

/-- Reset between two steps (R200, R201): the block's own state becomes that of `State.reset`; the configuration is
unaffected, and what the host still presents and has been answered is the host's. -/
def State.applyReset (s : State) : State :=
  { State.reset with config := s.config, input := s.input, responses := s.responses }

end Sys2Proof.Machine
end

