-- ==== Sys2Proof/Machine/F256Poly.lean ====
section
/-!
DEFINITION. The GF(2^8) operations that touch no table (R130 to R138): every byte is in the domain, and none reads or
writes `EXP`, `LOG` or `TABLE_READY`.
-/
namespace Sys2Proof.Machine

/-- F256.ISZ: the zero polynomial (R132). -/
def execF256Isz (a : Byte) (s : State) : Host.Outcome State Fault Refusal :=
  .next (s.respondOk (boolByte (a == 0x00)))

/-- F256.ADD: bitwise XOR (R133). -/
def execF256Add (a b : Byte) (s : State) : Host.Outcome State Fault Refusal :=
  .next (s.respondOk (a ^^^ b))

/-- F256.SUB: the same XOR, subtraction being addition in characteristic 2 (R134). -/
def execF256Sub (a b : Byte) (s : State) : Host.Outcome State Fault Refusal :=
  .next (s.respondOk (a ^^^ b))

/-- F256.NEG: the identity (R135). -/
def execF256Neg (a : Byte) (s : State) : Host.Outcome State Fault Refusal :=
  .next (s.respondOk a)

/-- F256.MUL: the shift-and-reduce product (R136). -/
def execF256Mul (a b : Byte) (s : State) : Host.Outcome State Fault Refusal :=
  .next (s.respondOk (polyMul a b))

/-- F256.INV: absent at 0, else the `i` of 0x00..0xFF with `PolyMul(a, i) = 1` (R137). -/
def execF256Inv (a : Byte) (s : State) : Host.Outcome State Fault Refusal :=
  if a = 0x00 then .next s.respondAbsent
  else finishSearch (searchAscending 256 fun i => polyMul a i == 0x01) s

/-- F256.INV2F: absent at 0, else `a^254` by 253 multiplications from `acc = a` (R138; conflict C4). -/
def execF256Inv2f (a : Byte) (s : State) : Host.Outcome State Fault Refusal :=
  if a = 0x00 then .next s.respondAbsent
  else .next (s.respondOk (repeatTimes 253 (fun acc => polyMul acc a) a))

end Sys2Proof.Machine
end

