-- ==== Sys2Proof/Machine/F256Tables.lean ====
section
/-!
DEFINITION. The table generator request and the GF(2^8) operations that read the tables (R150 to R162). Every zero
special case comes before `EnsureTables()`, so it builds no table; a domain violation builds none either (R80, R150).
-/
namespace Sys2Proof.Machine

/-- `LOG[a]` after `EnsureTables()` (R156). -/
def lookupLog (a : Byte) (s : State) : Except Fault (Byte × State) :=
  let t := ensureTables s
  match t.readLog a.toNat with
  | .ok l => .ok (l, t)
  | .error f => .error f

/-- `EXP[i]` after `EnsureTables()` (R157). -/
def lookupExp (i : Nat) (s : State) : Except Fault (Byte × State) :=
  let t := ensureTables s
  match t.readExp i with
  | .ok v => .ok (v, t)
  | .error f => .error f

/-- `EXP[k(LOG[a]) mod 255]` after `EnsureTables()`, where `k` is the 16-bit index computation of R159 or R161. -/
def lookupThroughLog (k : BitVec 16 → BitVec 16) (a : Byte) (s : State) : Except Fault (Byte × State) :=
  match lookupLog a s with
  | .ok (l, t) => lookupExp (k (zext16 l) % 255).toNat t
  | .error f => .error f

/-- `Mul2(x, y)` (R158, R162): zero if either is zero, before any table is touched; else
`EXP[(LOG[x] + LOG[y]) mod 255]`, the sum held in 16 bits. -/
def mul2 (x y : Byte) (s : State) : Except Fault (Byte × State) :=
  if x = 0x00 ∨ y = 0x00 then .ok (0x00, s)
  else
    match lookupLog x s with
    | .ok (lx, t) => lookupThroughLog (fun ly => zext16 lx + ly) y t
    | .error f => .error f

/-- `inv2(a)` for a nonzero `a` (R159; conflict C3): `EXP[(255 - LOG[a]) mod 255]`. -/
def tableInverse (a : Byte) (s : State) : Except Fault (Byte × State) :=
  lookupThroughLog (fun l => 255 - l) a s

/-- `repeat n times: acc <- Mul2(acc, a)` (R162). -/
def repeatMul2 (a : Byte) : Nat → Byte → State → Except Fault (Byte × State)
  | 0, acc, s => .ok (acc, s)
  | n + 1, acc, s =>
    match mul2 acc a s with
    | .ok (v, t) => repeatMul2 a n v t
    | .error f => .error f

/-- F256.TGEN: build the table pair now, at most once (R155). -/
def execF256Tgen (s : State) : Host.Outcome State Fault Refusal :=
  .next ((ensureTables s).respondOk 0x00)

/-- F256.LOG: the discrete logarithm of a nonzero element (R156). -/
def execF256Log (a : Byte) (s : State) : Host.Outcome State Fault Refusal :=
  checkDomain (logOperandValid a) s (finish (lookupLog a s))

/-- F256.EXP: the antilogarithm of an exponent 0..254 (R157). -/
def execF256Exp (e : Byte) (s : State) : Host.Outcome State Fault Refusal :=
  checkDomain (expOperandValid e) s (finish (lookupExp e.toNat s))

/-- F256.MUL2: multiplication by logarithms (R158). -/
def execF256Mul2 (a b : Byte) (s : State) : Host.Outcome State Fault Refusal :=
  finish (mul2 a b s)

/-- F256.INV2: absent at 0, else the inverse by table (R159). -/
def execF256Inv2 (a : Byte) (s : State) : Host.Outcome State Fault Refusal :=
  if a = 0x00 then .next s.respondAbsent
  else finish (tableInverse a s)

/-- F256.DIV: a zero divisor is absent, tested first; a zero dividend gives 0; else `PolyMul(a, inv2(b))` (R160). -/
def execF256Div (a b : Byte) (s : State) : Host.Outcome State Fault Refusal :=
  if b = 0x00 then .next s.respondAbsent
  else if a = 0x00 then .next (s.respondOk 0x00)
  else
    match tableInverse b s with
    | .ok (q, t) => .next (t.respondOk (polyMul a q))
    | .error f => .fault f

/-- F256.POW: `EXP[(e * LOG[a]) mod 255]`, the product held in 16 bits; 1 at `e = 0`, tested first; 0 at `a = 0`
(R161). -/
def execF256Pow (a e : Byte) (s : State) : Host.Outcome State Fault Refusal :=
  if e = 0x00 then .next (s.respondOk 0x01)
  else if a = 0x00 then .next (s.respondOk 0x00)
  else finish (lookupThroughLog (fun l => zext16 e * l) a s)

/-- F256.POW2: 1 at `e = 0`; else `e - 1` multiplications by `Mul2` from `acc = a` (R162; conflict C10). -/
def execF256Pow2 (a e : Byte) (s : State) : Host.Outcome State Fault Refusal :=
  if e = 0x00 then .next (s.respondOk 0x01)
  else finish (repeatMul2 a (e.toNat - 1) a s)

end Sys2Proof.Machine
end

