-- ==== Sys2Proof/Machine/F3.lean ====
section
/-!
DEFINITION. The ternary-style operations (R110 to R115), by the byte-level case analysis of the rules. None reads or
writes the tables or `TABLE_READY`.
-/
namespace Sys2Proof.Machine

/-- The sum of two F3 bytes (R112; conflict C2): 0 is an identity, two equal nonzero values sum to the other nonzero
value, two distinct ones to 0. -/
def f3Sum (a b : Byte) : Byte :=
  if a = 0x00 then b
  else if b = 0x00 then a
  else if a = b then (if a = 0x01 then 0xFF else 0x01)
  else 0x00

/-- The product of two F3 bytes (R113). -/
def f3Product (a b : Byte) : Byte :=
  if a = 0x00 ∨ b = 0x00 then 0x00
  else if a = b then 0x01
  else 0xFF

/-- F3.ISZ: the byte is 0x00 (R111). -/
def execF3Isz (a : Byte) (s : State) : Host.Outcome State Fault Refusal :=
  checkDomain (f3Valid a) s (.next (s.respondOk (boolByte (a == 0x00))))

/-- F3.ADD (R112). -/
def execF3Add (a b : Byte) (s : State) : Host.Outcome State Fault Refusal :=
  checkDomain (f3Valid a && f3Valid b) s (.next (s.respondOk (f3Sum a b)))

/-- F3.MUL (R113). -/
def execF3Mul (a b : Byte) (s : State) : Host.Outcome State Fault Refusal :=
  checkDomain (f3Valid a && f3Valid b) s (.next (s.respondOk (f3Product a b)))

/-- F3.NEG: fixes 0, swaps 1 and 255 (R114). -/
def execF3Neg (a : Byte) (s : State) : Host.Outcome State Fault Refusal :=
  checkDomain (f3Valid a) s
    (.next (s.respondOk (if a = 0x00 then 0x00 else if a = 0x01 then 0xFF else 0x01)))

/-- F3.INV: absent at 0, else the operand itself (R115). -/
def execF3Inv (a : Byte) (s : State) : Host.Outcome State Fault Refusal :=
  checkDomain (f3Valid a) s
    (if a = 0x00 then .next s.respondAbsent else .next (s.respondOk a))

end Sys2Proof.Machine
end

