-- ==== Sys2Proof/Machine/Gf2.lean ====
section
/-!
DEFINITION. The GF(2) operations (R100 to R105). None reads or writes the tables or `TABLE_READY`.
-/
namespace Sys2Proof.Machine

/-- GF2.ISZ: logical NOT (R101). -/
def execGf2Isz (a : Byte) (s : State) : Host.Outcome State Fault Refusal :=
  checkDomain (gf2Valid a) s (.next (s.respondOk (a ^^^ 0x01)))

/-- GF2.ADD: XOR (R102). -/
def execGf2Add (a b : Byte) (s : State) : Host.Outcome State Fault Refusal :=
  checkDomain (gf2Valid a && gf2Valid b) s (.next (s.respondOk (a ^^^ b)))

/-- GF2.MUL: AND (R103). -/
def execGf2Mul (a b : Byte) (s : State) : Host.Outcome State Fault Refusal :=
  checkDomain (gf2Valid a && gf2Valid b) s (.next (s.respondOk (a &&& b)))

/-- GF2.NEG: the identity (R104; conflict C1). -/
def execGf2Neg (a : Byte) (s : State) : Host.Outcome State Fault Refusal :=
  checkDomain (gf2Valid a) s (.next (s.respondOk a))

/-- GF2.INV: absent at 0, else 1 (R105). -/
def execGf2Inv (a : Byte) (s : State) : Host.Outcome State Fault Refusal :=
  checkDomain (gf2Valid a) s
    (if a = 0x00 then .next s.respondAbsent else .next (s.respondOk 0x01))

end Sys2Proof.Machine
end

