-- ==== Sys2Proof/Machine/P251.lean ====
section
/-!
DEFINITION. The GF(251) operations (R120 to R126), on 16-bit intermediates reduced modulo 251. None reads or writes the
tables or `TABLE_READY`.
-/
namespace Sys2Proof.Machine

/-- A 16-bit intermediate reduced modulo 251, `(v mod 251)[7:0]` (R7, R123). -/
def mod251 (v : BitVec 16) : Byte := (v % 251).truncate 8

/-- The shape of ISZ, NEG and INV: the operand goes through `OOR(a)` first (R121), and DOMAIN ends the request where
that refuses it. -/
def withP251Operand (a : Byte) (s : State) (run : Byte → Host.Outcome State Fault Refusal) :
    Host.Outcome State Fault Refusal :=
  match p251Operand s.config.p251Oor a with
  | some x => run x
  | none => .next s.raiseDomain

/-- P251.ISZ: the residue is 0 (R122). -/
def execP251Isz (a : Byte) (s : State) : Host.Outcome State Fault Refusal :=
  withP251Operand a s fun x => .next (s.respondOk (boolByte (x == 0)))

/-- P251.ADD, total on all bytes (R123). -/
def execP251Add (a b : Byte) (s : State) : Host.Outcome State Fault Refusal :=
  .next (s.respondOk (mod251 (zext16 a + zext16 b)))

/-- P251.MUL, total on all bytes (R124). -/
def execP251Mul (a b : Byte) (s : State) : Host.Outcome State Fault Refusal :=
  .next (s.respondOk (mod251 (zext16 a * zext16 b)))

/-- P251.NEG: `(251 - a') mod 251` (R125). -/
def execP251Neg (a : Byte) (s : State) : Host.Outcome State Fault Refusal :=
  withP251Operand a s fun x => .next (s.respondOk (mod251 (251 - zext16 x)))

/-- P251.INV: absent at 0, else the `x` of 0..250 with `a' * x mod 251 = 1` (R126). -/
def execP251Inv (a : Byte) (s : State) : Host.Outcome State Fault Refusal :=
  withP251Operand a s fun y =>
    if y = 0 then .next s.respondAbsent
    else finishSearch (searchAscending 251 fun x => mod251 (zext16 y * zext16 x) == 1) s

end Sys2Proof.Machine
end

