-- ==== Sys2Proof/Machine/Dispatch.lean ====
section
/-!
DEFINITION. One arm per operation of R63, in the table's order: each calls its meaning.
-/
namespace Sys2Proof.Machine

def exec (i : Instr) (s : State) : Host.Outcome State Fault Refusal :=
  match i with
  | .gf2Isz a => Sys2Proof.Machine.execGf2Isz a s
  | .gf2Add a b => Sys2Proof.Machine.execGf2Add a b s
  | .gf2Mul a b => Sys2Proof.Machine.execGf2Mul a b s
  | .gf2Neg a => Sys2Proof.Machine.execGf2Neg a s
  | .gf2Inv a => Sys2Proof.Machine.execGf2Inv a s
  | .f3Isz a => Sys2Proof.Machine.execF3Isz a s
  | .f3Add a b => Sys2Proof.Machine.execF3Add a b s
  | .f3Mul a b => Sys2Proof.Machine.execF3Mul a b s
  | .f3Neg a => Sys2Proof.Machine.execF3Neg a s
  | .f3Inv a => Sys2Proof.Machine.execF3Inv a s
  | .p251Isz a => Sys2Proof.Machine.execP251Isz a s
  | .p251Add a b => Sys2Proof.Machine.execP251Add a b s
  | .p251Mul a b => Sys2Proof.Machine.execP251Mul a b s
  | .p251Neg a => Sys2Proof.Machine.execP251Neg a s
  | .p251Inv a => Sys2Proof.Machine.execP251Inv a s
  | .f256Isz a => Sys2Proof.Machine.execF256Isz a s
  | .f256Add a b => Sys2Proof.Machine.execF256Add a b s
  | .f256Mul a b => Sys2Proof.Machine.execF256Mul a b s
  | .f256Neg a => Sys2Proof.Machine.execF256Neg a s
  | .f256Inv a => Sys2Proof.Machine.execF256Inv a s
  | .f256Inv2 a => Sys2Proof.Machine.execF256Inv2 a s
  | .f256Inv2f a => Sys2Proof.Machine.execF256Inv2f a s
  | .f256Sub a b => Sys2Proof.Machine.execF256Sub a b s
  | .f256Div a b => Sys2Proof.Machine.execF256Div a b s
  | .f256Mul2 a b => Sys2Proof.Machine.execF256Mul2 a b s
  | .f256Pow a e => Sys2Proof.Machine.execF256Pow a e s
  | .f256Pow2 a e => Sys2Proof.Machine.execF256Pow2 a e s
  | .f256Log a => Sys2Proof.Machine.execF256Log a s
  | .f256Exp e => Sys2Proof.Machine.execF256Exp e s
  | .f256Tgen => Sys2Proof.Machine.execF256Tgen s

end Sys2Proof.Machine
end

