-- ==== Sys2Proof/Machine/Fetch.lean ====
section
/-!
DEFINITION. What the block takes next from its input. There is no program counter and no instruction fetch (R22): the
next instruction is the request the host presents next.
-/
namespace Sys2Proof.Machine

/-- The next event on the input, and the state once it is taken; none where the host presents nothing. -/
def State.takeEvent (s : State) : Option (HostEvent × State) :=
  match s.input with
  | [] => none
  | event :: rest => some (event, { s with input := rest })

/-- `s` with one more request, presented before everything else the host presents. -/
def State.present (s : State) (w : ReqWord) : State := { s with input := .request w :: s.input }

end Sys2Proof.Machine
end

