-- ==== Sys2Proof/Machine/Step.lean ====
section
/-!
DEFINITION. One step: the block takes the next event and processes it from start to response (R20, R80).
-/
namespace Sys2Proof.Machine

/-- One step (R80). A request that decodes is executed; one that does not is answered ILLEGAL (R184). Reset is applied
between steps (R200). With nothing presented the block waits and nothing changes (assumption 4). -/
def step (s : State) : Host.Outcome State Fault Refusal :=
  match s.takeEvent with
  | none => .next s
  | some (.reset, t) => .next t.applyReset
  | some (.request w, t) =>
    match decode w with
    | .ok i => exec i t
    | .error _ => .next t.raiseIllegal

/-- `s` with the request of those bits presented next, so that the very next step runs it (assumption 5). -/
def State.withFetchWord (s : State) (nbits w : Nat) : State := s.present (tableRequest nbits w)

end Sys2Proof.Machine
end

