-- ==== Sys2Proof/WellFormed.lean ====
section
/-!
DEFINITION. Two checks. `Instr.wellFormed`: the operands keep the representation invariant the caller owes (R94,
R206), written from the list of R183; an instruction that fails it is still encodable and the block answers it with
DOMAIN. `requestWellFormed`: the command byte of a request word is one of the 30 legal ones, written from the list of
R66. Neither is used by the machine, which has its own checks in Machine/Operands.lean and Decode.lean; statements
compare the two.
-/
namespace Sys2Proof

/-- The operand bytes are in the domain their operation accepts (R28 column 3; R183, the complete list of causes). -/
def Instr.wellFormed (cfg : Config) : Instr → Bool
  | .gf2Isz a | .gf2Neg a | .gf2Inv a => gf2Byte a
  | .gf2Add a b | .gf2Mul a b => gf2Byte a && gf2Byte b
  | .f3Isz a | .f3Neg a | .f3Inv a => f3Byte a
  | .f3Add a b | .f3Mul a b => f3Byte a && f3Byte b
  | .p251Isz a | .p251Neg a | .p251Inv a => p251Byte a
  | .p251Add _ _ | .p251Mul _ _ => true
  | .f256Isz _ | .f256Add _ _ | .f256Mul _ _ | .f256Neg _ | .f256Inv _ | .f256Inv2 _ | .f256Inv2f _ => true
  | .f256Sub _ _ | .f256Div _ _ | .f256Mul2 _ _ | .f256Pow _ _ | .f256Pow2 _ _ => true
  | .f256Log a => decide (a.toNat ≠ 0)
  | .f256Exp e => decide (e.toNat ≠ 255)
  | .f256Tgen => true
where
  /-- R28: 0x00 or 0x01. -/
  gf2Byte (x : Byte) : Bool := [0x00, 0x01].contains x.toNat
  /-- R28: 0x00, 0x01 or 0xFF. -/
  f3Byte (x : Byte) : Bool := [0x00, 0x01, 0xFF].contains x.toNat
  /-- R121, R183: 251..255 is refused under `P251_OOR = FAULT` only. -/
  p251Byte (x : Byte) : Bool := decide (x.toNat < 251) || cfg.p251Oor == .normalize

/-- `cmd[7:6]` must be 00 (R61). -/
def reservedBitsClear (w : ReqWord) : Bool := decide (w.toNat / 65536 < 64)

/-- The function code exists on the field (R66): `fn` 0..4 on every field, 5..14 on F256 (`fld = 3`) only. -/
def functionAssigned (w : ReqWord) : Bool :=
  decide (w.toNat / 65536 % 16 < 5) || (w.toNat / 65536 / 16 % 4 == 3 && decide (w.toNat / 65536 % 16 < 15))

/-- The request selects one of the 30 operations (R66). -/
def requestWellFormed (w : ReqWord) : Bool := reservedBitsClear w && functionAssigned w

end Sys2Proof
end

