-- ==== Sys2Proof/Safety.lean ====
section
/-!
DEFINITION. The terms claims are stated in: the invariant of the machine, what a request is answered, what counts as a
run that has gone wrong, and the spec's own lists of the requests that read tables (95, section 6) and that end in
ABSENT (R182).
-/
namespace Sys2Proof

/-! ### The spec's lists -/

/-- The requests that build the tables if they are not built (95, section 6, after V233; R155 to R162). -/
def Instr.readsTables : Instr → Bool
  | .f256Tgen => true
  | .f256Log a => a != 0x00
  | .f256Exp e => e != 0xFF
  | .f256Mul2 a b => a != 0x00 && b != 0x00
  | .f256Inv2 a => a != 0x00
  | .f256Div a b => a != 0x00 && b != 0x00
  | .f256Pow a e => a != 0x00 && e != 0x00
  | .f256Pow2 a e => a != 0x00 && decide (2 ≤ e.toNat)
  | .gf2Isz _ | .gf2Add _ _ | .gf2Mul _ _ | .gf2Neg _ | .gf2Inv _ => false
  | .f3Isz _ | .f3Add _ _ | .f3Mul _ _ | .f3Neg _ | .f3Inv _ => false
  | .p251Isz _ | .p251Add _ _ | .p251Mul _ _ | .p251Neg _ | .p251Inv _ => false
  | .f256Isz _ | .f256Add _ _ | .f256Mul _ _ | .f256Neg _ | .f256Inv _ | .f256Inv2f _ | .f256Sub _ _ => false

/-- The causes of ABSENT, the complete list of R182. -/
def Instr.absentCause (cfg : Config) : Instr → Bool
  | .gf2Inv a | .f3Inv a | .f256Inv a | .f256Inv2 a | .f256Inv2f a => a.toNat == 0
  | .p251Inv a => a.toNat == 0 || (a.toNat == 251 && cfg.p251Oor == .normalize)
  | .f256Div _ b => b.toNat == 0
  | .gf2Isz _ | .gf2Add _ _ | .gf2Mul _ _ | .gf2Neg _ => false
  | .f3Isz _ | .f3Add _ _ | .f3Mul _ _ | .f3Neg _ => false
  | .p251Isz _ | .p251Add _ _ | .p251Mul _ _ | .p251Neg _ => false
  | .f256Isz _ | .f256Add _ _ | .f256Mul _ _ | .f256Neg _ | .f256Sub _ _ => false
  | .f256Mul2 _ _ | .f256Pow _ _ | .f256Pow2 _ _ | .f256Log _ | .f256Exp _ | .f256Tgen => false

end Sys2Proof

namespace Sys2Proof.Machine

/-! ### Effects, written as states -/

/-- `s` with one more response and nothing else changed. -/
def State.answered (s : State) (r : Response) : State := { s with responses := s.responses ++ [r] }

/-- `s` with the table pair built as the spec prints it (R153, R154) and nothing else changed. -/
def State.tablesBuilt (s : State) : State := { s with tableReady := true, exp := printedExp, log := printedLog }

/-! ### The invariant -/

/-- When `st` is not OK, `r = 0x00` (R24). -/
def Response.wf (r : Response) : Bool := r.st == .ok || r.r == 0x00

/-- What holds of every state the block can be in: the tables are in canonical form within their sizes (R31, R32); while
`TABLE_READY = 1` they hold the printed constants (R31, R32, R33); every response given is well formed (R24). Of an
unbuilt table it says nothing more: its content is unspecified (R36). -/
abbrev State.Inv (s : State) : Prop :=
  s.exp.wf expSize = true ∧ s.log.wf logSize = true ∧
  (s.tableReady = true → s.exp = printedExp ∧ s.log = printedLog) ∧
  s.responses.all Response.wf = true

/-! ### Answers -/

/-- The responses that executing `i` in `s` adds; none where execution stops. -/
def State.answers (s : State) (i : Instr) : List Response :=
  match exec i s with
  | .next t => t.responses.drop s.responses.length
  | .fault _ => []
  | .refused _ => []

/-- The responses that the request word `w`, taken next in `s`, adds. -/
def State.answersWord (s : State) (w : ReqWord) : List Response :=
  match step { s with input := [.request w] } with
  | .next t => t.responses.drop s.responses.length
  | .fault _ => []
  | .refused _ => []

/-- A run has gone wrong once a response reports a fault (R183; R188: this never-cleared record is the model's, not the
block's). -/
def State.faultSeen (s : State) : Bool := s.responses.any fun r => r.st.isFault

/-! ### The command map -/

/-- R63's map from command byte to operation, given the operand bytes `a` and `b`. -/
def commandMap : List (Nat × (Byte → Byte → Instr)) :=
  [(0x00, fun a _ => .gf2Isz a), (0x01, .gf2Add), (0x02, .gf2Mul), (0x03, fun a _ => .gf2Neg a),
   (0x04, fun a _ => .gf2Inv a)] ++
  [(0x10, fun a _ => .f3Isz a), (0x11, .f3Add), (0x12, .f3Mul), (0x13, fun a _ => .f3Neg a),
   (0x14, fun a _ => .f3Inv a)] ++
  [(0x20, fun a _ => .p251Isz a), (0x21, .p251Add), (0x22, .p251Mul), (0x23, fun a _ => .p251Neg a),
   (0x24, fun a _ => .p251Inv a)] ++
  [(0x30, fun a _ => .f256Isz a), (0x31, .f256Add), (0x32, .f256Mul), (0x33, fun a _ => .f256Neg a),
   (0x34, fun a _ => .f256Inv a), (0x35, fun a _ => .f256Inv2 a), (0x36, fun a _ => .f256Inv2f a),
   (0x37, .f256Sub), (0x38, .f256Div), (0x39, .f256Mul2), (0x3A, .f256Pow), (0x3B, .f256Pow2),
   (0x3C, fun a _ => .f256Log a), (0x3D, fun a _ => .f256Exp a), (0x3E, fun _ _ => .f256Tgen)]

/-! ### The integer readings of F3 bytes -/

/-- `val` of 42_f3.md: 0x00, 0x01, 0xFF stand for 0, 1, 2. -/
def f3Val (x : Byte) : Nat := if x = 0x00 then 0 else if x = 0x01 then 1 else 2

/-- `enc`, the inverse of `val`. -/
def f3Enc (n : Nat) : Byte := if n = 0 then 0x00 else if n = 1 then 0x01 else 0xFF

/-- `Mul2(x, y)` of R162 on the printed tables: 0x00 if either is zero, else `EXP[(LOG[x] + LOG[y]) mod 255]`. -/
def printedMul2 (x y : Byte) : Byte :=
  if x = 0x00 ∨ y = 0x00 then 0x00 else expEntry (((logEntry x).toNat + (logEntry y).toNat) % 255)

/-! ### The field contract (R81) as data -/

/-- What a field type supplies (R81), with its domain (R28 column 3). `ZERO` is 0x00 and `ONE` is 0x01 on every field
(R29). -/
structure FieldContract where
  dom : Byte → Bool
  isz : Byte → Instr
  add : Byte → Byte → Instr
  mul : Byte → Byte → Instr
  neg : Byte → Instr
  inv : Byte → Instr

/-- GF(2). -/
def gf2Field : FieldContract where
  dom x := decide (x.toNat ≤ 1)
  isz := .gf2Isz
  add := .gf2Add
  mul := .gf2Mul
  neg := .gf2Neg
  inv := .gf2Inv

/-- The ternary-style field. -/
def f3Field : FieldContract where
  dom x := x.toNat == 0 || x.toNat == 1 || x.toNat == 255
  isz := .f3Isz
  add := .f3Add
  mul := .f3Mul
  neg := .f3Neg
  inv := .f3Inv

/-- GF(251); its domain is 0..250. -/
def p251Field : FieldContract where
  dom x := decide (x.toNat ≤ 250)
  isz := .p251Isz
  add := .p251Add
  mul := .p251Mul
  neg := .p251Neg
  inv := .p251Inv

/-- GF(2^8); every byte is an element. -/
def f256Field : FieldContract where
  dom _ := true
  isz := .f256Isz
  add := .f256Add
  mul := .f256Mul
  neg := .f256Neg
  inv := .f256Inv

/-- The four element types of the block (R28). -/
def allFields : List FieldContract := [gf2Field, f3Field, p251Field, f256Field]

end Sys2Proof.Machine
end

