-- ==== Sys2Proof/Certificates/Slice0/Obligations.lean ====
section
/-!
DEFINITION. The statements for the provers. A statement about an operation gives the whole next state: `s.answered r` is
`s` with one more response and NOTHING else changed (tables, `TABLE_READY`, configuration, input), and `s.tablesBuilt` is
`s` with the printed tables, `TABLE_READY = 1` and nothing else changed; so each is its own frame. `s.Inv` (Safety.lean)
leaves the content of an unbuilt table open.
-/
open Sys2Proof Sys2Proof.Machine

/-! ### GF(2) -/

/-- R101, R104, R105: GF2.ISZ, GF2.NEG and GF2.INV on the whole byte range, with their encodings; `b` is ignored. -/
def Obligations.Gf2UnaryOperations : Prop :=
  ∀ (s : State) (a b : Byte),
    (decode (0x00#8 ++ a ++ b) = .ok (.gf2Isz a) ∧ decode (0x03#8 ++ a ++ b) = .ok (.gf2Neg a) ∧
      decode (0x04#8 ++ a ++ b) = .ok (.gf2Inv a)) ∧
    (a = 0x00 →
      exec (.gf2Isz a) s = .next (s.answered ⟨.ok, 0x01⟩) ∧
      exec (.gf2Neg a) s = .next (s.answered ⟨.ok, 0x00⟩) ∧
      exec (.gf2Inv a) s = .next (s.answered ⟨.absent, 0x00⟩)) ∧
    (a = 0x01 →
      exec (.gf2Isz a) s = .next (s.answered ⟨.ok, 0x00⟩) ∧
      exec (.gf2Neg a) s = .next (s.answered ⟨.ok, 0x01⟩) ∧
      exec (.gf2Inv a) s = .next (s.answered ⟨.ok, 0x01⟩)) ∧
    (1 < a.toNat →
      exec (.gf2Isz a) s = .next (s.answered ⟨.domain, 0x00⟩) ∧
      exec (.gf2Neg a) s = .next (s.answered ⟨.domain, 0x00⟩) ∧
      exec (.gf2Inv a) s = .next (s.answered ⟨.domain, 0x00⟩))

/-- R102, R103: GF2.ADD is XOR and GF2.MUL is AND on 0x00 and 0x01; DOMAIN when an operand is above 0x01. -/
def Obligations.Gf2BinaryOperations : Prop :=
  ∀ (s : State) (a b : Byte),
    (decode (0x01#8 ++ a ++ b) = .ok (.gf2Add a b) ∧ decode (0x02#8 ++ a ++ b) = .ok (.gf2Mul a b)) ∧
    (a.toNat ≤ 1 → b.toNat ≤ 1 →
      exec (.gf2Add a b) s = .next (s.answered ⟨.ok, a ^^^ b⟩) ∧
      exec (.gf2Mul a b) s = .next (s.answered ⟨.ok, a &&& b⟩)) ∧
    (1 < a.toNat ∨ 1 < b.toNat →
      exec (.gf2Add a b) s = .next (s.answered ⟨.domain, 0x00⟩) ∧
      exec (.gf2Mul a b) s = .next (s.answered ⟨.domain, 0x00⟩))

/-! ### F3 -/

/-- R111, R114, R115: F3.ISZ, F3.NEG and F3.INV on the whole byte range, with their encodings; `b` is ignored. -/
def Obligations.F3UnaryOperations : Prop :=
  ∀ (s : State) (a b : Byte),
    (decode (0x10#8 ++ a ++ b) = .ok (.f3Isz a) ∧ decode (0x13#8 ++ a ++ b) = .ok (.f3Neg a) ∧
      decode (0x14#8 ++ a ++ b) = .ok (.f3Inv a)) ∧
    (a = 0x00 →
      exec (.f3Isz a) s = .next (s.answered ⟨.ok, 0x01⟩) ∧
      exec (.f3Neg a) s = .next (s.answered ⟨.ok, 0x00⟩) ∧
      exec (.f3Inv a) s = .next (s.answered ⟨.absent, 0x00⟩)) ∧
    (a = 0x01 →
      exec (.f3Isz a) s = .next (s.answered ⟨.ok, 0x00⟩) ∧
      exec (.f3Neg a) s = .next (s.answered ⟨.ok, 0xFF⟩) ∧
      exec (.f3Inv a) s = .next (s.answered ⟨.ok, 0x01⟩)) ∧
    (a = 0xFF →
      exec (.f3Isz a) s = .next (s.answered ⟨.ok, 0x00⟩) ∧
      exec (.f3Neg a) s = .next (s.answered ⟨.ok, 0x01⟩) ∧
      exec (.f3Inv a) s = .next (s.answered ⟨.ok, 0xFF⟩)) ∧
    (1 < a.toNat → a.toNat < 255 →
      exec (.f3Isz a) s = .next (s.answered ⟨.domain, 0x00⟩) ∧
      exec (.f3Neg a) s = .next (s.answered ⟨.domain, 0x00⟩) ∧
      exec (.f3Inv a) s = .next (s.answered ⟨.domain, 0x00⟩))

/-- R112, R113: F3.ADD and F3.MUL are the sum and the product modulo 3 under the encoding 0, 1, 255; DOMAIN when an
operand is in 0x02..0xFE, whatever the other is. -/
def Obligations.F3BinaryOperations : Prop :=
  ∀ (s : State) (a b : Byte),
    (decode (0x11#8 ++ a ++ b) = .ok (.f3Add a b) ∧ decode (0x12#8 ++ a ++ b) = .ok (.f3Mul a b)) ∧
    (f3Field.dom a = true → f3Field.dom b = true →
      exec (.f3Add a b) s = .next (s.answered ⟨.ok, f3Enc ((f3Val a + f3Val b) % 3)⟩) ∧
      exec (.f3Mul a b) s = .next (s.answered ⟨.ok, f3Enc (f3Val a * f3Val b % 3)⟩)) ∧
    (f3Field.dom a = false ∨ f3Field.dom b = false →
      exec (.f3Add a b) s = .next (s.answered ⟨.domain, 0x00⟩) ∧
      exec (.f3Mul a b) s = .next (s.answered ⟨.domain, 0x00⟩))

/-! ### GF(251) -/

/-- R121, R122, R125, R126: P251.ISZ, P251.NEG and P251.INV. An operand in 0..250, or any operand under
`P251_OOR = NORMALIZE`, is taken modulo 251; an operand in 251..255 is DOMAIN under `FAULT`. The inverse is the unique
`x` in 0..250 with `a * x mod 251 = 1`. -/
def Obligations.P251UnaryOperations : Prop :=
  ∀ (s : State) (a b : Byte),
    (decode (0x20#8 ++ a ++ b) = .ok (.p251Isz a) ∧ decode (0x23#8 ++ a ++ b) = .ok (.p251Neg a) ∧
      decode (0x24#8 ++ a ++ b) = .ok (.p251Inv a)) ∧
    (a.toNat ≤ 250 ∨ s.config.p251Oor = .normalize →
      exec (.p251Isz a) s = .next (s.answered ⟨.ok, if a.toNat % 251 = 0 then 0x01 else 0x00⟩) ∧
      exec (.p251Neg a) s = .next (s.answered ⟨.ok, BitVec.ofNat 8 ((251 - a.toNat % 251) % 251)⟩) ∧
      (a.toNat % 251 = 0 → exec (.p251Inv a) s = .next (s.answered ⟨.absent, 0x00⟩)) ∧
      (a.toNat % 251 ≠ 0 →
        ∃ x : Byte, x.toNat ≤ 250 ∧ a.toNat % 251 * x.toNat % 251 = 1 ∧
          (∀ y : Byte, y.toNat ≤ 250 → a.toNat % 251 * y.toNat % 251 = 1 → y = x) ∧
          exec (.p251Inv a) s = .next (s.answered ⟨.ok, x⟩))) ∧
    (250 < a.toNat → s.config.p251Oor = .fault →
      exec (.p251Isz a) s = .next (s.answered ⟨.domain, 0x00⟩) ∧
      exec (.p251Neg a) s = .next (s.answered ⟨.domain, 0x00⟩) ∧
      exec (.p251Inv a) s = .next (s.answered ⟨.domain, 0x00⟩))

/-- R123, R124: P251.ADD and P251.MUL are the integer sum and product modulo 251, for all 65,536 operand pairs: no
intermediate wraps. -/
def Obligations.P251BinaryOperations : Prop :=
  ∀ (s : State) (a b : Byte),
    (decode (0x21#8 ++ a ++ b) = .ok (.p251Add a b) ∧ decode (0x22#8 ++ a ++ b) = .ok (.p251Mul a b)) ∧
    exec (.p251Add a b) s = .next (s.answered ⟨.ok, BitVec.ofNat 8 ((a.toNat + b.toNat) % 251)⟩) ∧
    exec (.p251Mul a b) s = .next (s.answered ⟨.ok, BitVec.ofNat 8 (a.toNat * b.toNat % 251)⟩)

/-! ### GF(2^8) without tables -/

/-- R132, R133, R134, R135: F256.ISZ, F256.ADD, F256.SUB and F256.NEG, total on all bytes. -/
def Obligations.F256XorOperations : Prop :=
  ∀ (s : State) (a b : Byte),
    (decode (0x30#8 ++ a ++ b) = .ok (.f256Isz a) ∧ decode (0x31#8 ++ a ++ b) = .ok (.f256Add a b) ∧
      decode (0x37#8 ++ a ++ b) = .ok (.f256Sub a b) ∧ decode (0x33#8 ++ a ++ b) = .ok (.f256Neg a)) ∧
    exec (.f256Isz a) s = .next (s.answered ⟨.ok, if a = 0x00 then 0x01 else 0x00⟩) ∧
    exec (.f256Add a b) s = .next (s.answered ⟨.ok, a ^^^ b⟩) ∧
    exec (.f256Sub a b) s = .next (s.answered ⟨.ok, a ^^^ b⟩) ∧
    exec (.f256Neg a) s = .next (s.answered ⟨.ok, a⟩)

/-- R136: F256.MUL answers `PolyMul(a, b)` on all operand pairs; the corner cases the rule lists. What `PolyMul`
computes is `PolyMulIsMultiplicationModuloReducer`. -/
def Obligations.F256Multiplication : Prop :=
  (∀ (s : State) (a b : Byte),
    decode (0x32#8 ++ a ++ b) = .ok (.f256Mul a b) ∧
    exec (.f256Mul a b) s = .next (s.answered ⟨.ok, polyMul a b⟩)) ∧
  (∀ a : Byte, polyMul a 0x00 = 0x00 ∧ polyMul a 0x01 = a) ∧
  polyMul 0x80 0x02 = 0x1B ∧ polyMul 0xFF 0xFF = 0x13 ∧ polyMul 0x02 0x87 = 0x15 ∧ polyMul 0x57 0x83 = 0xC1 ∧
  polyMul 0x57 0x13 = 0xFE ∧ polyMul 0x80 0x80 = 0x9A ∧ polyMul 0x10 0x10 = 0x1B ∧ polyMul 0x03 0x03 = 0x05 ∧
  polyMul 0x53 0xCA = 0x01

/-- R131 fact (4) with R136: what F256.MUL answers is the one byte congruent to the product of the operands modulo
`x^8+x^4+x^3+x+1`, a byte being read as the polynomial over GF(2) whose coefficients are its bits (R10). -/
def Obligations.PolyMulIsMultiplicationModuloReducer : Prop :=
  let poly : Byte → Polynomial (ZMod 2) := fun x =>
    ∑ i ∈ Finset.range 8, if x.getLsbD i then Polynomial.X ^ i else 0
  let reducing : Polynomial (ZMod 2) :=
    Polynomial.X ^ 8 + Polynomial.X ^ 4 + Polynomial.X ^ 3 + Polynomial.X + 1
  ∀ (s : State) (x y z : Byte),
    exec (.f256Mul x y) s = .next (s.answered ⟨.ok, z⟩) ↔ reducing ∣ poly x * poly y - poly z

/-- R137: F256.INV answers ABSENT at 0x00, and elsewhere the one byte whose product with the operand is 0x01. -/
def Obligations.F256InverseBySearch : Prop :=
  ∀ (s : State) (a b : Byte),
    decode (0x34#8 ++ a ++ b) = .ok (.f256Inv a) ∧
    (a = 0x00 → exec (.f256Inv a) s = .next (s.answered ⟨.absent, 0x00⟩)) ∧
    (a ≠ 0x00 →
      ∃ x : Byte, polyMul a x = 0x01 ∧ (∀ y : Byte, polyMul a y = 0x01 → y = x) ∧
        exec (.f256Inv a) s = .next (s.answered ⟨.ok, x⟩))

/-- R138: F256.INV2F answers ABSENT at 0x00, and elsewhere what 253 multiplications by the operand make of it, which is
the operand's inverse. -/
def Obligations.F256InverseByRepeatedMultiplication : Prop :=
  ∀ (s : State) (a b : Byte),
    decode (0x36#8 ++ a ++ b) = .ok (.f256Inv2f a) ∧
    (a = 0x00 → exec (.f256Inv2f a) s = .next (s.answered ⟨.absent, 0x00⟩)) ∧
    (a ≠ 0x00 →
      exec (.f256Inv2f a) s = .next (s.answered ⟨.ok, (fun acc => polyMul acc a)^[253] a⟩) ∧
      polyMul a ((fun acc => polyMul acc a)^[253] a) = 0x01)

/-! ### GF(2^8) with tables -/

/-- R155: F256.TGEN builds the printed tables once and answers (OK, 0x00); with `TABLE_READY = 1` it changes nothing
else, in any state. `a` and `b` are ignored. -/
def Obligations.F256TableGeneration : Prop :=
  ∀ (s : State) (a b : Byte),
    decode (0x3E#8 ++ a ++ b) = .ok .f256Tgen ∧
    (s.Inv → exec .f256Tgen s = .next (s.tablesBuilt.answered ⟨.ok, 0x00⟩)) ∧
    (s.tableReady = true → exec .f256Tgen s = .next (s.answered ⟨.ok, 0x00⟩))

/-- R153, R154: from tables of ANY content in canonical form, F256.TGEN leaves `EXP` with the 255 printed entries, which
are the powers of 3, and no other, and `LOG` with the 256 printed entries, which are their logarithms. -/
def Obligations.BuiltTablesAreThePrintedPowersOfThree : Prop :=
  ∀ s : State, s.exp.wf expSize = true → s.log.wf logSize = true → s.tableReady = false →
    ∃ t : State, exec .f256Tgen s = .next t ∧ t.tableReady = true ∧
      (∀ i : Nat, i ≤ 254 →
        t.exp.read i = some (expEntry i) ∧ expEntry i = (fun v => polyMul v 0x03)^[i] 0x01) ∧
      (∀ i : Nat, 254 < i → t.exp.read i = none) ∧
      (∀ x : Byte, x ≠ 0x00 →
        t.log.read x.toNat = some (logEntry x) ∧ (logEntry x).toNat ≤ 254 ∧ expEntry (logEntry x).toNat = x) ∧
      t.log.read 0 = some 0x00 ∧ (∀ i : Nat, 255 < i → t.log.read i = none)

/-- R156: F256.LOG is DOMAIN at 0x00, in every state and without building the tables; elsewhere it answers the printed
`LOG[a]`. -/
def Obligations.F256LogLookup : Prop :=
  ∀ (s : State) (a b : Byte),
    decode (0x3C#8 ++ a ++ b) = .ok (.f256Log a) ∧
    (a = 0x00 → exec (.f256Log a) s = .next (s.answered ⟨.domain, 0x00⟩)) ∧
    (a ≠ 0x00 → s.Inv → exec (.f256Log a) s = .next (s.tablesBuilt.answered ⟨.ok, logEntry a⟩))

/-- R157: F256.EXP is DOMAIN at 0xFF, in every state and without building the tables; elsewhere it answers the printed
`EXP[a]`, which is never 0x00. -/
def Obligations.F256ExpLookup : Prop :=
  ∀ (s : State) (a b : Byte),
    decode (0x3D#8 ++ a ++ b) = .ok (.f256Exp a) ∧
    (254 < a.toNat → exec (.f256Exp a) s = .next (s.answered ⟨.domain, 0x00⟩)) ∧
    (a.toNat ≤ 254 → s.Inv →
      exec (.f256Exp a) s = .next (s.tablesBuilt.answered ⟨.ok, expEntry a.toNat⟩) ∧ expEntry a.toNat ≠ 0x00)

/-- R158: F256.MUL2. A zero operand answers 0x00 and touches no table; else `EXP[(LOG[a] + LOG[b]) mod 255]`, the sum
taken exactly. -/
def Obligations.F256MultiplicationByLogs : Prop :=
  ∀ (s : State) (a b : Byte),
    decode (0x39#8 ++ a ++ b) = .ok (.f256Mul2 a b) ∧
    (a = 0x00 ∨ b = 0x00 → exec (.f256Mul2 a b) s = .next (s.answered ⟨.ok, 0x00⟩)) ∧
    (a ≠ 0x00 → b ≠ 0x00 → s.Inv →
      exec (.f256Mul2 a b) s =
        .next (s.tablesBuilt.answered ⟨.ok, expEntry (((logEntry a).toNat + (logEntry b).toNat) % 255)⟩))

/-- R159: F256.INV2. ABSENT at 0x00 without touching a table; else `EXP[(255 - LOG[a]) mod 255]`. -/
def Obligations.F256InverseByTable : Prop :=
  ∀ (s : State) (a b : Byte),
    decode (0x35#8 ++ a ++ b) = .ok (.f256Inv2 a) ∧
    (a = 0x00 → exec (.f256Inv2 a) s = .next (s.answered ⟨.absent, 0x00⟩)) ∧
    (a ≠ 0x00 → s.Inv →
      exec (.f256Inv2 a) s = .next (s.tablesBuilt.answered ⟨.ok, expEntry ((255 - (logEntry a).toNat) % 255)⟩))

/-- R160: F256.DIV. A zero divisor is ABSENT whatever the dividend, a zero dividend gives 0x00, neither touching a
table; else `PolyMul(a, EXP[(255 - LOG[b]) mod 255])`, which times `b` is `a`. -/
def Obligations.F256Division : Prop :=
  ∀ (s : State) (a b : Byte),
    decode (0x38#8 ++ a ++ b) = .ok (.f256Div a b) ∧
    (b = 0x00 → exec (.f256Div a b) s = .next (s.answered ⟨.absent, 0x00⟩)) ∧
    (b ≠ 0x00 → a = 0x00 → exec (.f256Div a b) s = .next (s.answered ⟨.ok, 0x00⟩)) ∧
    (b ≠ 0x00 → a ≠ 0x00 → s.Inv →
      ∃ q : Byte, q = polyMul a (expEntry ((255 - (logEntry b).toNat) % 255)) ∧ polyMul q b = a ∧
        exec (.f256Div a b) s = .next (s.tablesBuilt.answered ⟨.ok, q⟩))

/-- R161: F256.POW. 0x01 at exponent 0, then 0x00 at base 0x00, neither touching a table; else
`EXP[(e * LOG[a]) mod 255]`, the product taken exactly. -/
def Obligations.F256PowerByLog : Prop :=
  ∀ (s : State) (a e : Byte),
    decode (0x3A#8 ++ a ++ e) = .ok (.f256Pow a e) ∧
    (e = 0x00 → exec (.f256Pow a e) s = .next (s.answered ⟨.ok, 0x01⟩)) ∧
    (e ≠ 0x00 → a = 0x00 → exec (.f256Pow a e) s = .next (s.answered ⟨.ok, 0x00⟩)) ∧
    (e ≠ 0x00 → a ≠ 0x00 → s.Inv →
      exec (.f256Pow a e) s =
        .next (s.tablesBuilt.answered ⟨.ok, expEntry (e.toNat * (logEntry a).toNat % 255)⟩))

/-- R162: F256.POW2. 0x01 at exponent 0, `a` at exponent 1, 0x00 at base 0x00 and exponent > 0, none touching a table;
else `e - 1` multiplications by `Mul2` from `acc = a`, and the tables are built. -/
def Obligations.F256PowerByRepeatedMul2 : Prop :=
  ∀ (s : State) (a e : Byte),
    decode (0x3B#8 ++ a ++ e) = .ok (.f256Pow2 a e) ∧
    (e = 0x00 → exec (.f256Pow2 a e) s = .next (s.answered ⟨.ok, 0x01⟩)) ∧
    (e = 0x01 → exec (.f256Pow2 a e) s = .next (s.answered ⟨.ok, a⟩)) ∧
    (e ≠ 0x00 → a = 0x00 → exec (.f256Pow2 a e) s = .next (s.answered ⟨.ok, 0x00⟩)) ∧
    (2 ≤ e.toNat → a ≠ 0x00 → s.Inv →
      exec (.f256Pow2 a e) s =
        .next (s.tablesBuilt.answered ⟨.ok, (fun acc => printedMul2 acc a)^[e.toNat - 1] a⟩))

/-! ### Requests and their encoding -/

/-- R20, R80: a step whose request decodes to `i` is `i` executed in the state with that request taken. -/
def Obligations.StepExecutesTheDecodedRequest : Prop :=
  ∀ (s : State) (w : ReqWord) (rest : List HostEvent) (i : Instr),
    s.input = .request w :: rest → decode w = .ok i → step s = exec i { s with input := rest }

/-- R60 to R65: every request word decodes as the command map of R63 says, and to nothing where the map has no row. -/
def Obligations.DecodingFollowsTheCommandMap : Prop :=
  ∀ cmd a b : Byte, (decode (cmd ++ a ++ b)).toOption = (commandMap.lookup cmd.toNat).map fun f => f a b

/-- R66, R184: 226 of the 256 command bytes are illegal; a request with one is answered (ILLEGAL, 0x00) whatever its
operands, and nothing else changes; every other request decodes. -/
def Obligations.IllegalRequestsAnsweredIllegal : Prop :=
  (∀ (s : State) (w : ReqWord) (rest : List HostEvent),
    s.input = .request w :: rest → requestWellFormed w = false →
      step s = .next (({ s with input := rest } : State).answered ⟨.illegal, 0x00⟩)) ∧
  (∀ w : ReqWord, requestWellFormed w = true → ∃ i, decode w = .ok i) ∧
  ((List.range 256).filter fun c => !requestWellFormed (BitVec.ofNat 24 (c * 65536))).length = 226

/-- R60, R63: decoding the encoding of an instruction gives the instruction back, with every operand at every value. -/
def Obligations.DecodeInvertsEncode : Prop :=
  ∀ i : Instr, decode (encode i) = .ok i

/-- R64, R65: encoding what a request word decodes to gives the word back, but for the operand bytes the operation does
not use, which come back 0x00 (R69). -/
def Obligations.EncodeInvertsDecodeOnUsedBits : Prop :=
  ∀ (w : ReqWord) (i : Instr), decode w = .ok i → encode i = w &&& i.usedBits

/-- R64: an operand byte the operation does not use cannot change anything: two requests that agree on the command byte
and the used operand bytes make the same step. -/
def Obligations.UnusedOperandBytesAreIgnored : Prop :=
  ∀ (s : State) (w w' : ReqWord) (rest : List HostEvent) (i : Instr),
    s.input = .request w :: rest → decode w = .ok i → w &&& i.usedBits = w' &&& i.usedBits →
      step s = step { s with input := .request w' :: rest }

/-- R69 with R63 and R70: an operation's mnemonic with exactly the operands it uses assembles to its encoding, unused
operand bytes 0x00, and R69's example to its word; a mnemonic that no operation has assembles to nothing. The last two
clauses are the model's choice (assumption 11): an operand written beyond those used, up to two, stands in the word as
written; a line that lacks a used operand, or has more than two operands, assembles to nothing. -/
def Obligations.AssemblerWritesTheEncoding : Prop :=
  (∀ i : Instr, assemble i.mnemonic i.operands = some (encode i)) ∧
  assemble "F256.MUL" [0x53, 0xCA] = some 0x3253CA ∧
  (∀ (name : String) (line : List Byte), (∀ i : Instr, i.mnemonic ≠ name) → assemble name line = none) ∧
  (∀ (i : Instr) (line : List Byte), i.operands.length ≤ line.length → line.length ≤ 2 →
    assemble i.mnemonic line = some (i.command ++ line.getD 0 0x00 ++ line.getD 1 0x00)) ∧
  (∀ (i : Instr) (line : List Byte), line.length < i.operands.length ∨ 2 < line.length →
    assemble i.mnemonic line = none)

/-- Words of every family written out from R60 and R63: a sanity check of the decoder. -/
def Obligations.DecodedWordsOfEveryFamily : Prop :=
  decode 0x000100 = .ok (.gf2Isz 0x01) ∧ decode 0x11FE07 = .ok (.f3Add 0xFE 0x07) ∧
  decode 0x227DF9 = .ok (.p251Mul 0x7D 0xF9) ∧ decode 0x365300 = .ok (.f256Inv2f 0x53) ∧
  decode 0x38C183 = .ok (.f256Div 0xC1 0x83) ∧ decode 0x3E0000 = .ok .f256Tgen

/-- R25, R26, R82: the codes on the port `st[1:0]`, the byte of a boolean result, and the output `tbl_rdy`. -/
def Obligations.PortEncodings : Prop :=
  (Status.ok.code = 0 ∧ Status.absent.code = 1 ∧ Status.domain.code = 2 ∧ Status.illegal.code = 3) ∧
  (boolByte true = 0x01 ∧ boolByte false = 0x00) ∧
  ∀ s : State, (s.tblRdy = 1 ↔ s.tableReady = true) ∧ (s.tblRdy = 0 ↔ s.tableReady = false)

/-! ### Reset and the invariant -/

/-- R36, R201: after reset `TABLE_READY = 0`, `tbl_rdy = 0` and no table entry can be read; the parameter has its default
(R8). Reset applied between two steps leaves the same of any state, and keeps the configuration. -/
def Obligations.ResetLeavesTheTablesUnbuilt : Prop :=
  (State.reset.tableReady = false ∧ State.reset.tblRdy = 0 ∧ State.reset.config.p251Oor = .fault ∧
    ∀ i : Nat, (∃ f, State.reset.readExp i = .error f) ∧ ∃ f, State.reset.readLog i = .error f) ∧
  ∀ (s : State) (rest : List HostEvent), s.input = .reset :: rest →
    ∃ t : State, step s = .next t ∧ t.tableReady = false ∧ t.tblRdy = 0 ∧
      (∀ i : Nat, (∃ f, t.readExp i = .error f) ∧ ∃ f, t.readLog i = .error f) ∧
      t.config = s.config ∧ t.input = rest ∧ t.responses = s.responses

/-- The state after reset meets the invariant. -/
def Obligations.ResetMeetsTheInvariant : Prop :=
  State.reset.Inv

/-- R31, R32, R33, R24 as an invariant: every step, from every state that meets it, keeps the tables canonical and, once
built, the printed constants, and every response well formed. -/
def Obligations.EveryStepKeepsTheInvariant : Prop :=
  ∀ s t : State, s.Inv → step s = .next t → t.Inv

/-- R24, R207, R200: a step that is presented an event, be it a request or a reset, answers a next state, and one that
takes a request gives exactly one response, after the earlier ones, with `r = 0x00` when it is not OK; no request can
hang or stop the block. (A step presented with nothing is the model's own: IdleStepChangesNothing.) -/
def Obligations.EveryRequestIsAnsweredExactlyOnce : Prop :=
  ∀ s : State, s.Inv →
    (s.input ≠ [] → ∃ t, step s = .next t) ∧
    ∀ (w : ReqWord) (rest : List HostEvent), s.input = .request w :: rest →
      ∃ (t : State) (r : Response), step s = .next t ∧ t.input = rest ∧ t.responses = s.responses ++ [r] ∧
        (r.st ≠ .ok → r.r = 0x00)

/-- The model's choice (assumption 4): with nothing presented a step changes nothing. -/
def Obligations.IdleStepChangesNothing : Prop :=
  ∀ s : State, s.input = [] → step s = .next s

/-! ### Whole-machine rules -/

/-- R49 (a), R35: the response to a request is a function of the request and `P251_OOR` alone, whatever else differs
between two states: tables built or not, unbuilt tables of any content, earlier responses, later requests. -/
def Obligations.ResponseDependsOnRequestAndParameterOnly : Prop :=
  ∀ (s t : State) (w : ReqWord) (rs rt : List HostEvent),
    s.Inv → t.Inv → s.config = t.config → s.input = .request w :: rs → t.input = .request w :: rt →
      ∃ (r : Response) (s' t' : State), step s = .next s' ∧ step t = .next t' ∧
        s'.responses = s.responses ++ [r] ∧ t'.responses = t.responses ++ [r]

/-- R49, R50, R204: a run over any sequence of requests gives, in request order, to each the response it would get
alone, with resets applied anywhere between them. -/
def Obligations.RunAnswersEachRequestAsIfAlone : Prop :=
  ∀ (s : State) (n : Nat), s.Inv → n = s.input.length →
    ∃ t : State, Host.Core.run Sys2Proof.core n s = .next t ∧ t.input = [] ∧
      t.responses = s.responses ++ s.input.flatMap fun event =>
        match event with
        | .request w => s.answersWord w
        | .reset => []

/-- The requests that build the tables are those of the spec's list (95, section 6), and `tbl_rdy` rises with no
other. -/
def Obligations.TableReadyRisesExactlyWithTableRequests : Prop :=
  ∀ (s : State) (i : Instr), s.Inv →
    ∃ t : State, exec i s = .next t ∧ t.tableReady = (s.tableReady || i.readsTables) ∧
      t.tblRdy = (if t.tableReady then 1 else 0) ∧
      (i.readsTables = true → t.exp = printedExp ∧ t.log = printedLog)

/-- R30: nothing but reset clears `TABLE_READY`, from any state. -/
def Obligations.OnlyResetClearsTableReady : Prop :=
  ∀ s t : State, step s = .next t → s.tableReady = true → t.tableReady = false →
    ∃ rest, s.input = .reset :: rest

/-- R33: while `TABLE_READY = 1` no request writes `EXP` or `LOG`, from any state; while `TABLE_READY = 0` no request
reads them: their content, whatever it is, changes nothing of what the request does. -/
def Obligations.BuiltTablesImmutableAndUnbuiltTablesUnread : Prop :=
  (∀ (s t : State) (w : ReqWord) (rest : List HostEvent),
    s.input = .request w :: rest → step s = .next t → s.tableReady = true →
      ∀ i : Nat, t.exp.read i = s.exp.read i ∧ t.log.read i = s.log.read i) ∧
  (∀ (s : State) (w : ReqWord) (rest : List HostEvent) (e l : Memory),
    s.input = .request w :: rest → s.tableReady = false → s.exp.wf expSize = true → s.log.wf logSize = true →
    e.wf expSize = true → l.wf logSize = true →
      ∃ t u : State, step s = .next t ∧ step { s with exp := e, log := l } = .next u ∧
        u.responses = t.responses ∧ u.tableReady = t.tableReady ∧
        (t.tableReady = true → u.exp = t.exp ∧ u.log = t.log) ∧
        (t.tableReady = false → t.exp = s.exp ∧ t.log = s.log ∧ u.exp = e ∧ u.log = l))

/-- The frame of every operation, from any state: the configuration and the input stay; exactly one response is added;
and unless the operation reads the tables while they are unbuilt, `TABLE_READY` and every table entry stay. -/
def Obligations.ExecutionFrame : Prop :=
  ∀ (i : Instr) (s t : State), exec i s = .next t →
    t.config = s.config ∧ t.input = s.input ∧ (∃ r, t.responses = s.responses ++ [r]) ∧
    (i.readsTables = false ∨ s.tableReady = true →
      t.tableReady = s.tableReady ∧ ∀ k : Nat, t.exp.read k = s.exp.read k ∧ t.log.read k = s.log.read k)

/-- R187 for the faults, R182 for ABSENT, R24 for the result byte, from any state: a request whose response is not OK has
`r = 0x00` and no effect but that response. -/
def Obligations.FaultsAndAbsentsLeaveNoTrace : Prop :=
  ∀ (s t : State) (w : ReqWord) (rest : List HostEvent) (r : Response),
    s.input = .request w :: rest → step s = .next t → t.responses = s.responses ++ [r] → r.st ≠ .ok →
      r.r = 0x00 ∧ t = ({ s with input := rest } : State).answered r

/-- R183: an operation answers (DOMAIN, 0x00), with no state change, exactly when an operand it uses is outside its
domain, by the complete list of causes; and the run is then marked as having gone wrong. -/
def Obligations.DomainExactlyOnOperandsOutsideTheDomain : Prop :=
  ∀ (s : State) (i : Instr),
    (i.wellFormed s.config = false →
      exec i s = .next (s.answered ⟨.domain, 0x00⟩) ∧ (s.answered ⟨.domain, 0x00⟩).faultSeen = true) ∧
    (i.wellFormed s.config = true → ∀ v : Byte, s.answers i ≠ [⟨.domain, v⟩])

/-- R182: an operation answers (ABSENT, 0x00), with no state change and no table built, exactly for the complete list of
causes; and ABSENT is no fault. -/
def Obligations.AbsentExactlyForTheListedCauses : Prop :=
  ∀ (s : State) (i : Instr),
    (i.absentCause s.config = true →
      exec i s = .next (s.answered ⟨.absent, 0x00⟩) ∧ (s.answered ⟨.absent, 0x00⟩).faultSeen = s.faultSeen) ∧
    (i.absentCause s.config = false → ∀ v : Byte, s.answers i ≠ [⟨.absent, v⟩])

/-- R181: every operation answers OK on every operand combination that is neither a cause of DOMAIN nor one of
ABSENT. -/
def Obligations.OkOnAllOtherOperands : Prop :=
  ∀ (s : State) (i : Instr), s.Inv → i.wellFormed s.config = true → i.absentCause s.config = false →
    ∃ (t : State) (v : Byte), exec i s = .next t ∧ t.responses = s.responses ++ [⟨.ok, v⟩]

/-- R37: no step changes the configuration, reset included. -/
def Obligations.ConfigurationIsFixed : Prop :=
  ∀ s t : State, step s = .next t → t.config = s.config

/-- R180, R188 (the record is the model's): the record that a fault was seen is never cleared, and legal requests with
operands in the domain never set it. -/
def Obligations.FaultRecordKeptAndUntouchedByInDomainRequests : Prop :=
  (∀ s t : State, step s = .next t → s.faultSeen = true → t.faultSeen = true) ∧
  (∀ (s : State) (w : ReqWord) (rest : List HostEvent) (i : Instr),
    s.Inv → s.input = .request w :: rest → decode w = .ok i → i.wellFormed s.config = true →
      ∃ t : State, step s = .next t ∧ t.faultSeen = s.faultSeen)

/-! ### The laws of the contracts -/

/-- R87: addition and multiplication are defined and closed on every field's domain; GF(251)'s accept every byte. -/
def Obligations.AdditionAndMultiplicationAreClosed : Prop :=
  (∀ F ∈ allFields, ∀ (s : State) (a b : Byte), F.dom a = true → F.dom b = true →
    ∃ u v : Byte, F.dom u = true ∧ F.dom v = true ∧
      s.answers (F.add a b) = [⟨.ok, u⟩] ∧ s.answers (F.mul a b) = [⟨.ok, v⟩]) ∧
  (∀ (s : State) (a b : Byte), ∃ u v : Byte, u.toNat ≤ 250 ∧ v.toNat ≤ 250 ∧
    s.answers (.p251Add a b) = [⟨.ok, u⟩] ∧ s.answers (.p251Mul a b) = [⟨.ok, v⟩])

/-- R88: on every field, `add(a, ZERO) = a` and `add(a, neg(a)) = ZERO`. -/
def Obligations.AdditiveIdentityAndInverse : Prop :=
  ∀ F ∈ allFields, ∀ (s : State) (a : Byte), F.dom a = true →
    s.answers (F.add a 0x00) = [⟨.ok, a⟩] ∧
    ∃ n : Byte, F.dom n = true ∧ s.answers (F.neg a) = [⟨.ok, n⟩] ∧ s.answers (F.add a n) = [⟨.ok, 0x00⟩]

/-- R89: on every field, `mul(a, ONE) = a` and `mul(a, ZERO) = ZERO`. -/
def Obligations.MultiplicativeIdentityAndZero : Prop :=
  ∀ F ∈ allFields, ∀ (s : State) (a : Byte), F.dom a = true →
    s.answers (F.mul a 0x01) = [⟨.ok, a⟩] ∧ s.answers (F.mul a 0x00) = [⟨.ok, 0x00⟩]

/-- R90: on every field, a nonzero element times its inverse is ONE, and the inverse of ZERO is absent. -/
def Obligations.InverseIsCorrectOnEveryField : Prop :=
  ∀ F ∈ allFields, ∀ s : State,
    s.answers (F.inv 0x00) = [⟨.absent, 0x00⟩] ∧
    ∀ a : Byte, F.dom a = true → a ≠ 0x00 →
      ∃ x : Byte, F.dom x = true ∧ s.answers (F.inv a) = [⟨.ok, x⟩] ∧ s.answers (F.mul a x) = [⟨.ok, 0x01⟩]

/-- R93: on the whole of every domain, addition and multiplication are commutative and associative, and multiplication
distributes over addition. -/
def Obligations.CommutativeAssociativeDistributive : Prop :=
  ∀ F ∈ allFields, ∀ (s : State) (a b c : Byte), F.dom a = true → F.dom b = true → F.dom c = true →
    s.answers (F.add a b) = s.answers (F.add b a) ∧ s.answers (F.mul a b) = s.answers (F.mul b a) ∧
    (∃ ab bc abc : Byte, s.answers (F.add a b) = [⟨.ok, ab⟩] ∧ s.answers (F.add b c) = [⟨.ok, bc⟩] ∧
      s.answers (F.add ab c) = [⟨.ok, abc⟩] ∧ s.answers (F.add a bc) = [⟨.ok, abc⟩]) ∧
    (∃ ab bc abc : Byte, s.answers (F.mul a b) = [⟨.ok, ab⟩] ∧ s.answers (F.mul b c) = [⟨.ok, bc⟩] ∧
      s.answers (F.mul ab c) = [⟨.ok, abc⟩] ∧ s.answers (F.mul a bc) = [⟨.ok, abc⟩]) ∧
    (∃ bc ab ac v : Byte, s.answers (F.add b c) = [⟨.ok, bc⟩] ∧ s.answers (F.mul a b) = [⟨.ok, ab⟩] ∧
      s.answers (F.mul a c) = [⟨.ok, ac⟩] ∧ s.answers (F.mul a bc) = [⟨.ok, v⟩] ∧
      s.answers (F.add ab ac) = [⟨.ok, v⟩])

/-- R91: the paired algorithms of F256 agree on every operand: the three inversions (ABSENT at zero), the two powers, and
the two multiplications. -/
def Obligations.PairedAlgorithmsAgree : Prop :=
  ∀ s : State, s.Inv →
    (∀ a : Byte, ∃ r : Response, s.answers (.f256Inv a) = [r] ∧ s.answers (.f256Inv2 a) = [r] ∧
      s.answers (.f256Inv2f a) = [r] ∧ (a = 0x00 → r = ⟨.absent, 0x00⟩)) ∧
    (∀ a e : Byte, ∃ v : Byte, s.answers (.f256Pow a e) = [⟨.ok, v⟩] ∧ s.answers (.f256Pow2 a e) = [⟨.ok, v⟩]) ∧
    (∀ a b : Byte, ∃ v : Byte, s.answers (.f256Mul a b) = [⟨.ok, v⟩] ∧ s.answers (.f256Mul2 a b) = [⟨.ok, v⟩])

/-- R92: the table round trip through F256.LOG and F256.EXP, both ways; the logarithm of 0x01 is 0. -/
def Obligations.LogAndExpInvertEachOther : Prop :=
  ∀ s : State, s.Inv →
    (∀ a : Byte, a ≠ 0x00 →
      ∃ l : Byte, s.answers (.f256Log a) = [⟨.ok, l⟩] ∧ s.answers (.f256Exp l) = [⟨.ok, a⟩]) ∧
    (∀ i : Byte, i.toNat ≤ 254 →
      ∃ x : Byte, s.answers (.f256Exp i) = [⟨.ok, x⟩] ∧ s.answers (.f256Log x) = [⟨.ok, i⟩]) ∧
    s.answers (.f256Log 0x01) = [⟨.ok, 0x00⟩]

/-! ### The fault record -/

/-- R183, R184 and U11 call DOMAIN and ILLEGAL faults; R188 leaves a record of them to the model (assumption 2): a request
that selects no operation, and one whose operation uses an operand outside its domain, is answered so that the record
shows a fault. -/
def Obligations.FaultyRequestsEnterTheFaultRecord : Prop :=
  ∀ (s : State) (w : ReqWord) (rest : List HostEvent), s.input = .request w :: rest →
    (requestWellFormed w = false ∨ ∃ i : Instr, decode w = .ok i ∧ i.wellFormed s.config = false) →
      ∃ t : State, step s = .next t ∧ t.faultSeen = true
end

