-- ==== Sys2Proof/Laws/Memory.lean ====
section
/-!
SUPPORT. The laws of the table memories: read after write, the canonical form kept by every write, and canonical
memories with equal reads are equal.
-/
namespace Sys2Proof.Machine

/-! ### One cell at a time -/

@[simp] theorem Memory.read_nil (i : Nat) : Memory.read [] i = none := rfl

theorem natBeq_eq_decide (a b : Nat) : Nat.beq a b = decide (a = b) := by
  rw [Bool.eq_iff_iff]; simp [Nat.beq_eq]

theorem natBlt_eq_decide (a b : Nat) : Nat.blt a b = decide (a < b) := by
  rw [Bool.eq_iff_iff]; simp [Nat.blt_eq]

@[simp] theorem Memory.read_cons (c : Host.Cell) (m : Memory) (i : Nat) :
    Memory.read (c :: m) i = if c.1 = i then some c.2 else m.read i := by
  simp [Memory.read, natBeq_eq_decide, Bool.cond_decide]

@[simp] theorem Memory.write_nil (i : Nat) (v : Byte) : Memory.write [] i v = [(i, v)] := rfl

@[simp] theorem Memory.write_cons (c : Host.Cell) (m : Memory) (i : Nat) (v : Byte) :
    Memory.write (c :: m) i v =
      if c.1 < i then c :: m.write i v else if c.1 = i then (i, v) :: m else (i, v) :: c :: m := by
  simp [Memory.write, natBeq_eq_decide, natBlt_eq_decide, Bool.cond_decide]

@[simp] theorem Memory.wfFrom_nil (low size : Nat) : Memory.wfFrom low size [] = true := rfl

@[simp] theorem Memory.wfFrom_cons (low size : Nat) (c : Host.Cell) (m : Memory) :
    Memory.wfFrom low size (c :: m) = true ↔ (low ≤ c.1 ∧ c.1 < size) ∧ m.wfFrom (c.1 + 1) size = true := by
  simp [Memory.wfFrom]

/-! ### Read after write -/

theorem Memory.read_write (m : Memory) (i j : Nat) (v : Byte) :
    (m.write i v).read j = if i = j then some v else m.read j := by
  induction m with
  | nil => simp
  | cons c m ih =>
    rw [Memory.write_cons]
    by_cases hlt : c.1 < i
    · rw [if_pos hlt, Memory.read_cons, Memory.read_cons, ih]
      by_cases hcj : c.1 = j
      · rw [if_pos hcj, if_pos hcj, if_neg (by omega)]
      · rw [if_neg hcj, if_neg hcj]
    · by_cases heq : c.1 = i
      · by_cases hij : i = j <;> simp [heq, hij]
      · rw [if_neg hlt, if_neg heq, Memory.read_cons]

/-! ### The canonical form -/

theorem Memory.wfFrom_mono {low low' size : Nat} (h : low' ≤ low) :
    ∀ {m : Memory}, m.wfFrom low size = true → m.wfFrom low' size = true
  | [], _ => rfl
  | _ :: _, hm => by
    rw [Memory.wfFrom_cons] at hm ⊢
    exact ⟨⟨by omega, hm.1.2⟩, hm.2⟩

theorem Memory.wfFrom_write {size i : Nat} {v : Byte} (hi : i < size) :
    ∀ {m : Memory} {low : Nat}, m.wfFrom low size = true → low ≤ i → (m.write i v).wfFrom low size = true
  | [], low, _, hlow => by simp [hlow, hi]
  | c :: m, low, hm, hlow => by
    rw [Memory.wfFrom_cons] at hm
    rw [Memory.write_cons]
    by_cases hlt : c.1 < i
    · simp only [hlt, if_true, Memory.wfFrom_cons]
      exact ⟨hm.1, Memory.wfFrom_write hi hm.2 hlt⟩
    · by_cases heq : c.1 = i
      · simp only [heq, if_true, Nat.lt_irrefl, if_false, Memory.wfFrom_cons]
        exact ⟨⟨hlow, hi⟩, heq ▸ hm.2⟩
      · simp only [hlt, heq, if_false, Memory.wfFrom_cons]
        exact ⟨⟨hlow, hi⟩, ⟨by omega, hm.1.2⟩, hm.2⟩

/-- Every write inside a memory's size keeps its canonical form. -/
theorem Memory.wf_write {m : Memory} {size i : Nat} {v : Byte} (hm : m.wf size = true) (hi : i < size) :
    (m.write i v).wf size = true :=
  Memory.wfFrom_write hi hm (Nat.zero_le i)

theorem Memory.read_below {size j : Nat} :
    ∀ {m : Memory} {low : Nat}, m.wfFrom low size = true → j < low → m.read j = none
  | [], _, _, _ => rfl
  | c :: m, low, hm, hj => by
    rw [Memory.wfFrom_cons] at hm
    have : ¬ c.1 = j := by omega
    simp only [Memory.read_cons, this, if_false]
    exact Memory.read_below hm.2 (by omega)

/-- A canonical memory holds nothing at or above its size. -/
theorem Memory.read_above {size j : Nat} (hj : size ≤ j) :
    ∀ {m : Memory} {low : Nat}, m.wfFrom low size = true → m.read j = none
  | [], _, _ => rfl
  | c :: m, low, hm => by
    rw [Memory.wfFrom_cons] at hm
    have : ¬ c.1 = j := by omega
    simp only [Memory.read_cons, this, if_false]
    exact Memory.read_above hj hm.2

/-- Canonical memories with equal reads are equal data. -/
theorem Memory.ext_of_wfFrom {size : Nat} :
    ∀ {m m' : Memory} {low : Nat}, m.wfFrom low size = true → m'.wfFrom low size = true →
      (∀ i, m.read i = m'.read i) → m = m'
  | [], [], _, _, _, _ => rfl
  | [], c :: _, _, _, _, h => by simpa using h c.1
  | c :: _, [], _, _, _, h => by simpa using h c.1
  | (k, v) :: m, (k', v') :: m', low, hm, hm', h => by
    rw [Memory.wfFrom_cons] at hm hm'
    dsimp only at hm hm'
    have hk : k = k' := by
      rcases Nat.lt_trichotomy k k' with hlt | heq | hgt
      · have h1 := h k
        have hne : ¬ k' = k := by omega
        simp [hne, Memory.read_below hm'.2 (show k < k' + 1 by omega)] at h1
      · exact heq
      · have h1 := h k'
        have hne : ¬ k = k' := by omega
        simp [hne, Memory.read_below hm.2 (show k' < k + 1 by omega)] at h1
    subst hk
    have hv : v = v' := by simpa using h k
    subst hv
    have hrest : m = m' := by
      refine Memory.ext_of_wfFrom hm.2 hm'.2 fun i => ?_
      have h1 := h i
      by_cases hi : k = i
      · subst hi
        rw [Memory.read_below hm.2 (by omega), Memory.read_below hm'.2 (by omega)]
      · simpa [hi] using h1
    rw [hrest]

theorem Memory.ext_of_wf {size : Nat} {m m' : Memory} (hm : m.wf size = true) (hm' : m'.wf size = true)
    (h : ∀ i, m.read i = m'.read i) : m = m' :=
  Memory.ext_of_wfFrom hm hm' h

end Sys2Proof.Machine
end

