-- ==== Sys2Proof/Laws/State.lean ====
section
/-!
SUPPORT. One lemma per field per update of the state, each true by `rfl`, so that no later proof unfolds a record
update.
-/
namespace Sys2Proof.Machine

variable (s : State) (st : Status) (v : Byte) (i : Nat) (w : ReqWord) (r : Response)

/-! ### respond -/

@[simp] theorem State.respond_config : (s.respond st v).config = s.config := rfl
@[simp] theorem State.respond_tableReady : (s.respond st v).tableReady = s.tableReady := rfl
@[simp] theorem State.respond_exp : (s.respond st v).exp = s.exp := rfl
@[simp] theorem State.respond_log : (s.respond st v).log = s.log := rfl
@[simp] theorem State.respond_input : (s.respond st v).input = s.input := rfl
@[simp] theorem State.respond_responses : (s.respond st v).responses = s.responses ++ [⟨st, v⟩] := rfl

/-- Every response is one `answered`: the three other ways to respond are forms of `respond`. -/
theorem State.respond_eq : s.respond st v = s.answered ⟨st, v⟩ := rfl
@[simp] theorem State.respondOk_eq : s.respondOk v = s.answered ⟨.ok, v⟩ := rfl
@[simp] theorem State.respondAbsent_eq : s.respondAbsent = s.answered ⟨.absent, 0x00⟩ := rfl
@[simp] theorem State.raise_eq : s.raise st = s.answered ⟨st, 0x00⟩ := rfl
@[simp] theorem State.raiseDomain_eq : s.raiseDomain = s.answered ⟨.domain, 0x00⟩ := rfl
@[simp] theorem State.raiseIllegal_eq : s.raiseIllegal = s.answered ⟨.illegal, 0x00⟩ := rfl

/-! ### answered -/

@[simp] theorem State.answered_config : (s.answered r).config = s.config := rfl
@[simp] theorem State.answered_tableReady : (s.answered r).tableReady = s.tableReady := rfl
@[simp] theorem State.answered_exp : (s.answered r).exp = s.exp := rfl
@[simp] theorem State.answered_log : (s.answered r).log = s.log := rfl
@[simp] theorem State.answered_input : (s.answered r).input = s.input := rfl
@[simp] theorem State.answered_responses : (s.answered r).responses = s.responses ++ [r] := rfl

/-! ### Table writes -/

@[simp] theorem State.writeExp_config : (s.writeExp i v).config = s.config := rfl
@[simp] theorem State.writeExp_tableReady : (s.writeExp i v).tableReady = s.tableReady := rfl
@[simp] theorem State.writeExp_exp : (s.writeExp i v).exp = s.exp.write i v := rfl
@[simp] theorem State.writeExp_log : (s.writeExp i v).log = s.log := rfl
@[simp] theorem State.writeExp_input : (s.writeExp i v).input = s.input := rfl
@[simp] theorem State.writeExp_responses : (s.writeExp i v).responses = s.responses := rfl
@[simp] theorem State.writeLog_config : (s.writeLog i v).config = s.config := rfl
@[simp] theorem State.writeLog_tableReady : (s.writeLog i v).tableReady = s.tableReady := rfl
@[simp] theorem State.writeLog_exp : (s.writeLog i v).exp = s.exp := rfl
@[simp] theorem State.writeLog_log : (s.writeLog i v).log = s.log.write i v := rfl
@[simp] theorem State.writeLog_input : (s.writeLog i v).input = s.input := rfl
@[simp] theorem State.writeLog_responses : (s.writeLog i v).responses = s.responses := rfl

/-! ### The tables built -/

@[simp] theorem State.tablesBuilt_config : s.tablesBuilt.config = s.config := rfl
@[simp] theorem State.tablesBuilt_tableReady : s.tablesBuilt.tableReady = true := rfl
@[simp] theorem State.tablesBuilt_exp : s.tablesBuilt.exp = printedExp := rfl
@[simp] theorem State.tablesBuilt_log : s.tablesBuilt.log = printedLog := rfl
@[simp] theorem State.tablesBuilt_input : s.tablesBuilt.input = s.input := rfl
@[simp] theorem State.tablesBuilt_responses : s.tablesBuilt.responses = s.responses := rfl
@[simp] theorem State.tablesBuilt_tablesBuilt : s.tablesBuilt.tablesBuilt = s.tablesBuilt := rfl

/-- A state whose tables hold the printed constants is its own `tablesBuilt`. -/
theorem State.tablesBuilt_of_ready {s : State} (h : s.Inv) (hr : s.tableReady = true) : s.tablesBuilt = s := by
  obtain ⟨-, -, ht, -⟩ := h
  obtain ⟨he, hl⟩ := ht hr
  cases s
  simp_all [State.tablesBuilt]

/-! ### Reset, input -/

@[simp] theorem State.applyReset_config : s.applyReset.config = s.config := rfl
@[simp] theorem State.applyReset_tableReady : s.applyReset.tableReady = false := rfl
@[simp] theorem State.applyReset_exp : s.applyReset.exp = [] := rfl
@[simp] theorem State.applyReset_log : s.applyReset.log = [] := rfl
@[simp] theorem State.applyReset_input : s.applyReset.input = s.input := rfl
@[simp] theorem State.applyReset_responses : s.applyReset.responses = s.responses := rfl
@[simp] theorem State.present_input : (s.present w).input = .request w :: s.input := rfl

theorem State.takeEvent_nil {s : State} (h : s.input = []) : s.takeEvent = none := by
  simp [State.takeEvent, h]

theorem State.takeEvent_cons {s : State} {event : HostEvent} {rest : List HostEvent} (h : s.input = event :: rest) :
    s.takeEvent = some (event, { s with input := rest }) := by
  simp [State.takeEvent, h]

/-! ### Setting the input -/

variable (rest : List HostEvent)

@[simp] theorem State.setInput_setInput (rest' : List HostEvent) :
    { { s with input := rest } with input := rest' } = { s with input := rest' } := rfl

end Sys2Proof.Machine
end

