-- ==== Sys2Proof/Laws/Tables.lean ====
section
/-!
SUPPORT. The table generator (R151, R152): whatever an unbuilt table holds, `GenTables()` leaves the printed constants
(R153, R154), because it writes every cell. The loop is read as two lists of writes.
-/
namespace Sys2Proof.Machine

/-! ### A list of writes -/

/-- The writes of a list, first to last. -/
def Memory.writes (m : Memory) (ws : List Host.Cell) : Memory := ws.foldl (fun m c => m.write c.1 c.2) m

/-- The byte the last write to an index stores, if one writes there. -/
def lastWrite : List Host.Cell → Nat → Option Byte
  | [], _ => none
  | c :: ws, j => (lastWrite ws j).or (if c.1 = j then some c.2 else none)

theorem Memory.read_writes (ws : List Host.Cell) (m : Memory) (j : Nat) :
    (m.writes ws).read j = (lastWrite ws j).or (m.read j) := by
  induction ws generalizing m with
  | nil => rfl
  | cons c ws ih =>
    have : m.writes (c :: ws) = (m.write c.1 c.2).writes ws := rfl
    rw [this, ih, Memory.read_write, lastWrite]
    by_cases h : c.1 = j <;> cases lastWrite ws j <;> simp [h]

theorem Memory.wf_writes {size : Nat} (ws : List Host.Cell) {m : Memory} (hm : m.wf size = true)
    (hws : ∀ c ∈ ws, c.1 < size) : (m.writes ws).wf size = true := by
  induction ws generalizing m with
  | nil => exact hm
  | cons c ws ih =>
    exact ih (Memory.wf_write hm (hws c (by simp))) fun c' hc' => hws c' (by simp [hc'])

/-- Writes that fill a whole memory leave the same memory whatever stood there. -/
theorem Memory.writes_fill {size : Nat} {ws : List Host.Cell} {m m' : Memory} (hm : m.wf size = true)
    (hm' : m'.wf size = true) (hin : ∀ c ∈ ws, c.1 < size) (hall : ∀ j < size, (lastWrite ws j).isSome) :
    m.writes ws = m'.writes ws := by
  refine Memory.ext_of_wf (Memory.wf_writes ws hm hin) (Memory.wf_writes ws hm' hin) fun j => ?_
  rw [Memory.read_writes, Memory.read_writes]
  by_cases hj : j < size
  · obtain ⟨v, hv⟩ := Option.isSome_iff_exists.1 (hall j hj)
    simp [hv]
  · rw [Memory.read_above (by omega) hm, Memory.read_above (by omega) hm']

/-! ### The generator as two lists of writes -/

/-- What `n` passes of R151's loop write to `EXP`, the running power being `v`. -/
def expWrites : Nat → Byte → List Host.Cell
  | 0, _ => []
  | n + 1, v => (254 - n, v) :: expWrites n (polyMul v generator)

/-- What they write to `LOG`. -/
def logWrites : Nat → Byte → List Host.Cell
  | 0, _ => []
  | n + 1, v => (v.toNat, BitVec.ofNat 8 (254 - n)) :: logWrites n (polyMul v generator)

theorem genLoop_eq (n : Nat) (v : Byte) (s : State) :
    genLoop n v s = { s with exp := s.exp.writes (expWrites n v), log := s.log.writes (logWrites n v) } := by
  induction n generalizing v s with
  | zero => rfl
  | succ n ih => rw [genLoop, ih]; rfl

theorem genTables_eq (s : State) :
    genTables s = { s with
      tableReady := true
      exp := s.exp.writes (expWrites 255 0x01)
      log := s.log.writes (logWrites 255 0x01 ++ [(0, 0x00)]) } := by
  rw [genTables, genLoop_eq]
  simp [State.writeLog, Memory.writes, List.foldl_append]

/-! ### What the generator leaves -/

theorem expWrites_inside : ∀ c ∈ expWrites 255 0x01, c.1 < expSize := by decide +kernel

theorem expWrites_everywhere : ∀ j < expSize, (lastWrite (expWrites 255 0x01) j).isSome := by decide +kernel

theorem logWrites_inside : ∀ c ∈ logWrites 255 0x01 ++ [(0, 0x00)], c.1 < logSize := by decide +kernel

theorem logWrites_everywhere : ∀ j < logSize, (lastWrite (logWrites 255 0x01 ++ [(0, 0x00)]) j).isSome := by
  decide +kernel

theorem expWrites_from_nothing : Memory.writes [] (expWrites 255 0x01) = printedExp := by decide +kernel

theorem logWrites_from_nothing : Memory.writes [] (logWrites 255 0x01 ++ [(0, 0x00)]) = printedLog := by
  decide +kernel

/-- `GenTables()` from tables of any content: the printed constants, `TABLE_READY = 1`, nothing else changed. -/
theorem genTables_tablesBuilt {s : State} (he : s.exp.wf expSize = true) (hl : s.log.wf logSize = true) :
    genTables s = s.tablesBuilt := by
  rw [genTables_eq, Memory.writes_fill (m' := []) he rfl expWrites_inside expWrites_everywhere,
    Memory.writes_fill (m' := []) hl rfl logWrites_inside logWrites_everywhere, expWrites_from_nothing,
    logWrites_from_nothing]
  rfl

theorem printedExp_wf : printedExp.wf expSize = true := by decide +kernel

theorem printedLog_wf : printedLog.wf logSize = true := by decide +kernel

/-- `GenTables()` changes the tables and `TABLE_READY` only, in every state. -/
theorem genTables_frame (s : State) :
    (genTables s).config = s.config ∧ (genTables s).input = s.input ∧ (genTables s).responses = s.responses ∧
      (genTables s).tableReady = true := by
  rw [genTables_eq]
  exact ⟨rfl, rfl, rfl, rfl⟩

/-- `EnsureTables()` (R152) in a state that meets the invariant: the tables are built, nothing else changed. -/
theorem ensureTables_of_inv {s : State} (h : s.Inv) : ensureTables s = s.tablesBuilt := by
  unfold ensureTables
  by_cases hr : s.tableReady = true
  · rw [if_pos hr, State.tablesBuilt_of_ready h hr]
  · rw [if_neg hr, genTables_tablesBuilt h.1 h.2.1]

/-- `EnsureTables()` changes nothing once the tables are built (R152, R33), in every state. -/
theorem ensureTables_of_ready {s : State} (h : s.tableReady = true) : ensureTables s = s := by
  simp [ensureTables, h]

theorem State.tablesBuilt_inv {s : State} (h : s.Inv) : s.tablesBuilt.Inv :=
  ⟨printedExp_wf, printedLog_wf, fun _ => ⟨rfl, rfl⟩, h.2.2.2⟩

theorem State.answered_inv {s : State} {r : Response} (h : s.Inv) (hr : r.wf = true) : (s.answered r).Inv :=
  ⟨h.1, h.2.1, h.2.2.1, by simpa [hr] using h.2.2.2⟩

/-! ### The printed entries -/

theorem printedExp_read (i : Nat) (h : i ≤ 254) : printedExp.read i = some (expEntry i) := by
  have : ∀ i < 255, printedExp.read i = some (expEntry i) := by decide +kernel
  exact this i (by omega)

theorem printedLog_read (t : Byte) : printedLog.read t.toNat = some (logEntry t) := by
  have : ∀ i < 256, printedLog.read i = some (printedLogBytes.getD i 0) := by decide +kernel
  exact this t.toNat t.isLt

end Sys2Proof.Machine
end

