-- ==== Sys2Proof/Laws/Ops.lean ====
section
/-!
SUPPORT. The shared operations, each with what it can do said once: first in every state (which state it leaves), then
in a state that meets the invariant (which value it gives).
-/
namespace Sys2Proof.Machine

/-! ### In every state -/

theorem lookupLog_state {a v : Byte} {s t : State} (h : lookupLog a s = .ok (v, t)) : t = ensureTables s := by
  unfold lookupLog at h
  dsimp only at h
  split at h <;> simp_all

theorem lookupExp_state {i : Nat} {v : Byte} {s t : State} (h : lookupExp i s = .ok (v, t)) :
    t = ensureTables s := by
  unfold lookupExp at h
  dsimp only at h
  split at h <;> simp_all

theorem ensureTables_ready (s : State) : (ensureTables s).tableReady = true := by
  unfold ensureTables
  split
  · assumption
  · exact (genTables_frame s).2.2.2

theorem ensureTables_ensureTables (s : State) : ensureTables (ensureTables s) = ensureTables s :=
  ensureTables_of_ready (ensureTables_ready s)

/-- `EnsureTables()` changes the tables and `TABLE_READY` only. -/
theorem ensureTables_frame (s : State) :
    (ensureTables s).config = s.config ∧ (ensureTables s).input = s.input ∧
      (ensureTables s).responses = s.responses := by
  unfold ensureTables
  split
  · exact ⟨rfl, rfl, rfl⟩
  · exact ⟨(genTables_frame s).1, (genTables_frame s).2.1, (genTables_frame s).2.2.1⟩

theorem lookupThroughLog_state {k : BitVec 16 → BitVec 16} {a v : Byte} {s t : State}
    (h : lookupThroughLog k a s = .ok (v, t)) : t = ensureTables s := by
  unfold lookupThroughLog at h
  split at h
  next l u hl => rw [lookupExp_state h, lookupLog_state hl, ensureTables_ensureTables]
  next => simp at h

theorem mul2_state {x y v : Byte} {s t : State} (h : mul2 x y s = .ok (v, t)) : t = s ∨ t = ensureTables s := by
  unfold mul2 at h
  split at h
  · simp_all
  · split at h
    next l u hl =>
      right
      rw [lookupThroughLog_state h, lookupLog_state hl, ensureTables_ensureTables]
    next => simp at h

theorem repeatMul2_state {a : Byte} {n : Nat} {acc v : Byte} {s t : State}
    (h : repeatMul2 a n acc s = .ok (v, t)) : t = s ∨ t = ensureTables s := by
  induction n generalizing acc s with
  | zero => simp_all [repeatMul2]
  | succ n ih =>
    unfold repeatMul2 at h
    split at h
    next w u hu =>
      rcases mul2_state hu with rfl | rfl
      · exact ih h
      · rcases ih h with rfl | rfl
        · exact .inr rfl
        · exact .inr (ensureTables_ensureTables s)
    next => simp at h

/-- What executing an operation can leave: one well-formed response, the tables untouched or, with a present result,
ensured; nothing else. -/
def AnswersOnce (s t : State) : Prop :=
  ∃ r : Response, r.wf = true ∧ (t = s.answered r ∨ (r.st = .ok ∧ t = (ensureTables s).answered r))

theorem answersOnce_answered (s : State) {r : Response} (h : r.wf = true) : AnswersOnce s (s.answered r) :=
  ⟨r, h, .inl rfl⟩

theorem answersOnce_checkDomain {d : Bool} {s t : State} {run : Host.Outcome State Fault Refusal}
    (hrun : run = .next t → AnswersOnce s t) (h : checkDomain d s run = .next t) : AnswersOnce s t := by
  unfold checkDomain at h
  split at h
  · exact hrun h
  · cases h
    exact answersOnce_answered s rfl

theorem answersOnce_finish {s t : State} {e : Except Fault (Byte × State)}
    (he : ∀ v u, e = .ok (v, u) → u = s ∨ u = ensureTables s) (h : finish e = .next t) : AnswersOnce s t := by
  match e, h, he with
  | .ok (v, u), h, he =>
    cases h
    rcases he v u rfl with rfl | rfl
    · exact answersOnce_answered _ rfl
    · exact ⟨⟨.ok, v⟩, rfl, .inr ⟨rfl, rfl⟩⟩

theorem answersOnce_finishSearch {s t : State} {found : Option Byte} (h : finishSearch found s = .next t) :
    AnswersOnce s t := by
  cases found <;> cases h <;> exact answersOnce_answered s rfl

/-! ### In a state that meets the invariant -/

theorem readExp_tablesBuilt (s : State) {i : Nat} (hi : i ≤ 254) : s.tablesBuilt.readExp i = .ok (expEntry i) := by
  simp [State.readExp, hi, cellValue, printedExp_read i hi]

theorem readLog_tablesBuilt (s : State) {a : Byte} (ha : a ≠ 0x00) :
    s.tablesBuilt.readLog a.toNat = .ok (logEntry a) := by
  have h1 : 1 ≤ a.toNat := by
    rcases Nat.eq_zero_or_pos a.toNat with h | h
    · exact absurd (BitVec.eq_of_toNat_eq (by simpa using h)) ha
    · exact h
  have h2 : a.toNat ≤ 255 := by have := a.isLt; omega
  simp [State.readLog, h1, h2, cellValue, printedLog_read a]

theorem lookupLog_of_inv {s : State} (h : s.Inv) {a : Byte} (ha : a ≠ 0x00) :
    lookupLog a s = .ok (logEntry a, s.tablesBuilt) := by
  simp [lookupLog, ensureTables_of_inv h, readLog_tablesBuilt s ha]

theorem lookupExp_of_inv {s : State} (h : s.Inv) {i : Nat} (hi : i ≤ 254) :
    lookupExp i s = .ok (expEntry i, s.tablesBuilt) := by
  simp [lookupExp, ensureTables_of_inv h, readExp_tablesBuilt s hi]

theorem lookupThroughLog_of_inv {s : State} (h : s.Inv) (k : BitVec 16 → BitVec 16) {a : Byte} (ha : a ≠ 0x00) :
    lookupThroughLog k a s = .ok (expEntry ((k (zext16 (logEntry a))).toNat % 255), s.tablesBuilt) := by
  have hlt : (k (zext16 (logEntry a))).toNat % 255 ≤ 254 := by omega
  simp [lookupThroughLog, lookupLog_of_inv h ha, BitVec.toNat_umod,
    lookupExp_of_inv (State.tablesBuilt_inv h) hlt]

theorem mul2_zero {x y : Byte} (s : State) (h : x = 0x00 ∨ y = 0x00) : mul2 x y s = .ok (0x00, s) := by
  rw [mul2, if_pos h]

theorem mul2_of_inv {s : State} (h : s.Inv) {x y : Byte} (hx : x ≠ 0x00) (hy : y ≠ 0x00) :
    mul2 x y s = .ok (expEntry ((zext16 (logEntry x) + zext16 (logEntry y)).toNat % 255), s.tablesBuilt) := by
  rw [mul2, if_neg (by simp_all), lookupLog_of_inv h hx]
  exact lookupThroughLog_of_inv (State.tablesBuilt_inv h) _ hy

end Sys2Proof.Machine
end

