-- ==== Sys2Proof/Laws/Exec.lean ====
section
/-!
SUPPORT. What an execution and a step can do, said once: `exec_answersOnce` and `step_cases`. Invariants and frames are
derived from these, not from unfolding exec.
-/
namespace Sys2Proof.Machine

/-- Whatever the operation and the state: if execution gives a next state, it answers once and touches nothing but the
tables, and those only with a present result. -/
theorem exec_answersOnce {i : Instr} {s t : State} (h : exec i s = .next t) : AnswersOnce s t := by
  cases i with
  | gf2Isz a | gf2Neg a | f3Isz a | f3Neg a =>
    exact answersOnce_checkDomain (fun h => by cases h; exact answersOnce_answered s rfl) h
  | gf2Add a b | gf2Mul a b | f3Add a b | f3Mul a b =>
    exact answersOnce_checkDomain (fun h => by cases h; exact answersOnce_answered s rfl) h
  | gf2Inv a | f3Inv a =>
    refine answersOnce_checkDomain (fun h => ?_) h
    split at h <;> cases h <;> exact answersOnce_answered s rfl
  | p251Isz a | p251Neg a =>
    simp only [exec, execP251Isz, execP251Neg, withP251Operand] at h
    split at h <;> cases h <;> exact answersOnce_answered s rfl
  | p251Inv a =>
    simp only [exec, execP251Inv, withP251Operand] at h
    split at h
    · split at h
      · cases h; exact answersOnce_answered s rfl
      · exact answersOnce_finishSearch h
    · cases h; exact answersOnce_answered s rfl
  | p251Add a b | p251Mul a b | f256Add a b | f256Sub a b | f256Mul a b =>
    cases h; exact answersOnce_answered s rfl
  | f256Isz a | f256Neg a => cases h; exact answersOnce_answered s rfl
  | f256Inv a =>
    simp only [exec, execF256Inv] at h
    split at h
    · cases h; exact answersOnce_answered s rfl
    · exact answersOnce_finishSearch h
  | f256Inv2f a =>
    simp only [exec, execF256Inv2f] at h
    split at h <;> cases h <;> exact answersOnce_answered s rfl
  | f256Inv2 a =>
    simp only [exec, execF256Inv2] at h
    split at h
    · cases h; exact answersOnce_answered s rfl
    · exact answersOnce_finish (fun v u hu => .inr (lookupThroughLog_state hu)) h
  | f256Div a b =>
    simp only [exec, execF256Div] at h
    split at h
    · cases h; exact answersOnce_answered s rfl
    · split at h
      · cases h; exact answersOnce_answered s rfl
      · split at h
        next q u hu =>
          cases h
          rw [lookupThroughLog_state hu]
          exact ⟨⟨.ok, polyMul a q⟩, rfl, .inr ⟨rfl, rfl⟩⟩
        next => cases h
  | f256Mul2 a b => exact answersOnce_finish (fun v u hu => mul2_state hu) h
  | f256Pow a e =>
    simp only [exec, execF256Pow] at h
    split at h
    · cases h; exact answersOnce_answered s rfl
    · split at h
      · cases h; exact answersOnce_answered s rfl
      · exact answersOnce_finish (fun v u hu => .inr (lookupThroughLog_state hu)) h
  | f256Pow2 a e =>
    simp only [exec, execF256Pow2] at h
    split at h
    · cases h; exact answersOnce_answered s rfl
    · exact answersOnce_finish (fun v u hu => repeatMul2_state hu) h
  | f256Log a =>
    exact answersOnce_checkDomain (answersOnce_finish (fun v u hu => .inr (lookupLog_state hu))) h
  | f256Exp e =>
    exact answersOnce_checkDomain (answersOnce_finish (fun v u hu => .inr (lookupExp_state hu))) h
  | f256Tgen =>
    cases h
    exact ⟨⟨.ok, 0x00⟩, rfl, .inr ⟨rfl, rfl⟩⟩

/-- What a step can do: wait, apply reset, or answer one request. -/
theorem step_cases {s t : State} (h : step s = .next t) :
    (s.input = [] ∧ t = s) ∨
    (∃ rest, s.input = .reset :: rest ∧ t = ({ s with input := rest } : State).applyReset) ∨
    (∃ w rest, s.input = .request w :: rest ∧ AnswersOnce { s with input := rest } t) := by
  match hin : s.input with
  | [] =>
    simp only [step, State.takeEvent_nil hin] at h
    cases h
    exact .inl ⟨rfl, rfl⟩
  | .reset :: rest =>
    simp only [step, State.takeEvent_cons hin] at h
    cases h
    exact .inr (.inl ⟨rest, rfl, rfl⟩)
  | .request w :: rest =>
    simp only [step, State.takeEvent_cons hin] at h
    refine .inr (.inr ⟨w, rest, rfl, ?_⟩)
    split at h
    · exact exec_answersOnce h
    · cases h
      exact answersOnce_answered _ rfl

end Sys2Proof.Machine
end

