-- ==== Sys2Proof/Laws/PerInstr.lean ====
section
/-!
SUPPORT. Statements about every instruction as syntax, one lemma per constructor. `Layout`: the encoder puts the
command byte and the operand bytes where R60 says, writes 0x00 for an operand the operation does not use (R69), and
the word is one of the legal ones (R66).
-/
namespace Sys2Proof.Laws.Layout

/-- The three bytes of the encoded request, and that its command byte is legal. -/
def Statement (i : Instr) : Prop :=
  commandOf (encode i) = i.command ∧ operandAOf (encode i) = i.operands.getD 0 0x00 ∧
    operandBOf (encode i) = i.operands.getD 1 0x00 ∧ requestWellFormed (encode i) = true

/-- A request, bit by bit. -/
theorem requestWord_getLsbD (cmd a b : Byte) (k : Nat) :
    (requestWord cmd a b).getLsbD k =
      if k < 8 then b.getLsbD k else if k - 8 < 8 then a.getLsbD (k - 8) else cmd.getLsbD (k - 8 - 8) := by
  have h : (requestWord cmd a b).getLsbD k = ((cmd ++ a) ++ b).getLsbD k := rfl
  rw [h, BitVec.getLsbD_append, BitVec.getLsbD_append]

/-- The command byte of a request. -/
@[simp] theorem commandOf_requestWord (cmd a b : Byte) : commandOf (requestWord cmd a b) = cmd := by
  apply BitVec.eq_of_getLsbD_eq
  intro i hi
  rw [commandOf, BitVec.getLsbD_extractLsb', requestWord_getLsbD]
  simp [hi, show ¬ 16 + i < 8 by omega, show ¬ 16 + i - 8 < 8 by omega, show 16 + i - 8 - 8 = i by omega]

/-- The first operand byte of a request. -/
@[simp] theorem operandAOf_requestWord (cmd a b : Byte) : operandAOf (requestWord cmd a b) = a := by
  apply BitVec.eq_of_getLsbD_eq
  intro i hi
  rw [operandAOf, BitVec.getLsbD_extractLsb', requestWord_getLsbD]
  simp [hi, show ¬ 8 + i < 8 by omega]

/-- The second operand byte of a request. -/
@[simp] theorem operandBOf_requestWord (cmd a b : Byte) : operandBOf (requestWord cmd a b) = b := by
  apply BitVec.eq_of_getLsbD_eq
  intro i hi
  rw [operandBOf, BitVec.getLsbD_extractLsb', requestWord_getLsbD]
  simp [hi]

/-- As a number, `req = cmd * 65536 + a * 256 + b` (R60). -/
theorem requestWord_toNat (cmd a b : Byte) :
    (requestWord cmd a b).toNat = cmd.toNat * 65536 + a.toNat * 256 + b.toNat := by
  have h : (requestWord cmd a b).toNat = ((cmd ++ a) ++ b).toNat := rfl
  rw [h, BitVec.toNat_append, BitVec.toNat_append, Nat.shiftLeft_eq, Nat.shiftLeft_eq, ← Nat.shiftLeft_eq,
    ← Nat.shiftLeft_add_eq_or_of_lt b.isLt, Nat.shiftLeft_eq, ← Nat.shiftLeft_eq cmd.toNat,
    ← Nat.shiftLeft_add_eq_or_of_lt a.isLt, Nat.shiftLeft_eq]
  omega

/-- The legality of a request depends on its command byte alone (R65). -/
theorem requestWellFormed_requestWord (cmd a b : Byte) :
    requestWellFormed (requestWord cmd a b) = requestWellFormed (requestWord cmd 0x00 0x00) := by
  have h : (requestWord cmd a b).toNat / 65536 = (requestWord cmd 0x00 0x00).toNat / 65536 := by
    rw [requestWord_toNat, requestWord_toNat]
    have := a.isLt
    have := b.isLt
    simp
    omega
  simp only [requestWellFormed, reservedBitsClear, functionAssigned, h]

theorem layout_of_command {i : Instr} (cmd : Byte) (hcmd : i.command = cmd)
    (h : requestWellFormed (requestWord cmd 0x00 0x00) = true) : Statement i :=
  ⟨commandOf_requestWord _ _ _, operandAOf_requestWord _ _ _, operandBOf_requestWord _ _ _,
    (requestWellFormed_requestWord _ _ _).trans (hcmd ▸ h)⟩

theorem gf2Isz (a : Byte) : Statement (.gf2Isz a) := layout_of_command 0x00 rfl (by decide)
theorem gf2Add (a b : Byte) : Statement (.gf2Add a b) := layout_of_command 0x01 rfl (by decide)
theorem gf2Mul (a b : Byte) : Statement (.gf2Mul a b) := layout_of_command 0x02 rfl (by decide)
theorem gf2Neg (a : Byte) : Statement (.gf2Neg a) := layout_of_command 0x03 rfl (by decide)
theorem gf2Inv (a : Byte) : Statement (.gf2Inv a) := layout_of_command 0x04 rfl (by decide)
theorem f3Isz (a : Byte) : Statement (.f3Isz a) := layout_of_command 0x10 rfl (by decide)
theorem f3Add (a b : Byte) : Statement (.f3Add a b) := layout_of_command 0x11 rfl (by decide)
theorem f3Mul (a b : Byte) : Statement (.f3Mul a b) := layout_of_command 0x12 rfl (by decide)
theorem f3Neg (a : Byte) : Statement (.f3Neg a) := layout_of_command 0x13 rfl (by decide)
theorem f3Inv (a : Byte) : Statement (.f3Inv a) := layout_of_command 0x14 rfl (by decide)
theorem p251Isz (a : Byte) : Statement (.p251Isz a) := layout_of_command 0x20 rfl (by decide)
theorem p251Add (a b : Byte) : Statement (.p251Add a b) := layout_of_command 0x21 rfl (by decide)
theorem p251Mul (a b : Byte) : Statement (.p251Mul a b) := layout_of_command 0x22 rfl (by decide)
theorem p251Neg (a : Byte) : Statement (.p251Neg a) := layout_of_command 0x23 rfl (by decide)
theorem p251Inv (a : Byte) : Statement (.p251Inv a) := layout_of_command 0x24 rfl (by decide)
theorem f256Isz (a : Byte) : Statement (.f256Isz a) := layout_of_command 0x30 rfl (by decide)
theorem f256Add (a b : Byte) : Statement (.f256Add a b) := layout_of_command 0x31 rfl (by decide)
theorem f256Mul (a b : Byte) : Statement (.f256Mul a b) := layout_of_command 0x32 rfl (by decide)
theorem f256Neg (a : Byte) : Statement (.f256Neg a) := layout_of_command 0x33 rfl (by decide)
theorem f256Inv (a : Byte) : Statement (.f256Inv a) := layout_of_command 0x34 rfl (by decide)
theorem f256Inv2 (a : Byte) : Statement (.f256Inv2 a) := layout_of_command 0x35 rfl (by decide)
theorem f256Inv2f (a : Byte) : Statement (.f256Inv2f a) := layout_of_command 0x36 rfl (by decide)
theorem f256Sub (a b : Byte) : Statement (.f256Sub a b) := layout_of_command 0x37 rfl (by decide)
theorem f256Div (a b : Byte) : Statement (.f256Div a b) := layout_of_command 0x38 rfl (by decide)
theorem f256Mul2 (a b : Byte) : Statement (.f256Mul2 a b) := layout_of_command 0x39 rfl (by decide)
theorem f256Pow (a e : Byte) : Statement (.f256Pow a e) := layout_of_command 0x3A rfl (by decide)
theorem f256Pow2 (a e : Byte) : Statement (.f256Pow2 a e) := layout_of_command 0x3B rfl (by decide)
theorem f256Log (a : Byte) : Statement (.f256Log a) := layout_of_command 0x3C rfl (by decide)
theorem f256Exp (e : Byte) : Statement (.f256Exp e) := layout_of_command 0x3D rfl (by decide)
theorem f256Tgen : Statement .f256Tgen := layout_of_command 0x3E rfl (by decide)

end Sys2Proof.Laws.Layout
end

