-- ==== Sys2Proof/Laws/PolyMul.lean ====
section
/-!
SUPPORT. The multiplier (R131). Its while loop is a fixed sequence of conditional XORs, one for each bit from the highest
down to bit 8 (facts (1) and (2)), so the whole of `PolyMul` is linear over XOR in each operand (facts (3) and (5)).
-/
namespace Sys2Proof.Machine

/-! ### The reduction loop as fixed passes -/

/-- One pass at a fixed bit `n + 8`: clear it with the aligned reducer if it is set. -/
def passAt (n : Nat) (acc : BitVec 16) : BitVec 16 :=
  if acc.getLsbD (n + 8) then acc ^^^ (reducer <<< n) else acc

/-- The passes at bits `n + 7` down to 8. -/
def passes : Nat → BitVec 16 → BitVec 16
  | 0, acc => acc
  | n + 1, acc => passes n (passAt n acc)

theorem reducer_getLsbD_high : ∀ j, 9 ≤ j → reducer.getLsbD j = false := by
  intro j hj
  by_cases h : j < 16
  · have : ∀ k < 16, 9 ≤ k → reducer.getLsbD k = false := by decide
    exact this j h hj
  · exact BitVec.getLsbD_of_ge _ _ (by omega)

/-- A number below `2^(k+1)` is below `2^k` when bit `k` is clear. -/
theorem lt_of_bit_clear {acc : BitVec 16} {k : Nat} (h : acc.toNat < 2 ^ (k + 1)) (hb : acc.getLsbD k = false) :
    acc.toNat < 2 ^ k := by
  refine Nat.lt_pow_two_of_testBit _ fun i hi => ?_
  rcases Nat.eq_or_lt_of_le hi with rfl | hlt
  · exact hb
  · exact Nat.testBit_lt_two_pow (Nat.lt_of_lt_of_le h (Nat.pow_le_pow_right (by decide) hlt))

/-- The highest set bit of a number below `2^(k+1)` with bit `k` set is bit `k`. -/
theorem log2_of_bit_set {acc : BitVec 16} {k : Nat} (h : acc.toNat < 2 ^ (k + 1)) (hb : acc.getLsbD k = true) :
    2 ^ k ≤ acc.toNat ∧ acc.toNat.log2 = k := by
  have hge : 2 ^ k ≤ acc.toNat := Nat.ge_two_pow_of_testBit hb
  have hne : acc.toNat ≠ 0 := by have := Nat.two_pow_pos k; omega
  refine ⟨hge, Nat.le_antisymm ?_ ?_⟩
  · exact Nat.le_of_lt_succ ((Nat.log2_lt hne).2 h)
  · exact (Nat.le_log2 hne).2 hge

/-- A pass clears its bit and sets none above it. -/
theorem passAt_lt {acc : BitVec 16} {n : Nat} (hn : n + 8 < 16) (h : acc.toNat < 2 ^ (n + 1 + 8)) :
    (passAt n acc).toNat < 2 ^ (n + 8) := by
  have hk : n + 1 + 8 = (n + 8) + 1 := by omega
  rw [hk] at h
  unfold passAt
  by_cases hb : acc.getLsbD (n + 8) = true
  · rw [if_pos hb]
    refine Nat.lt_pow_two_of_testBit _ fun i hi => ?_
    have hx : (acc ^^^ reducer <<< n).getLsbD i = false := by
      by_cases h16 : i < 16
      · rw [BitVec.getLsbD_xor, BitVec.getLsbD_shiftLeft]
        rcases Nat.eq_or_lt_of_le hi with rfl | hlt
        · have h8 : reducer.getLsbD 8 = true := by decide
          rw [hb, show n + 8 - n = 8 by omega, h8, decide_eq_true hn, decide_eq_false (show ¬ n + 8 < n by omega)]
          rfl
        · have h1 : acc.getLsbD i = false :=
            Nat.testBit_lt_two_pow (Nat.lt_of_lt_of_le h (Nat.pow_le_pow_right (by decide) hlt))
          simp [h1, reducer_getLsbD_high (i - n) (by omega)]
      · exact BitVec.getLsbD_of_ge _ _ (by omega)
    exact hx
  · rw [if_neg hb]
    exact lt_of_bit_clear h (by simpa using hb)

/-- Below `2^(n+8)`, any fuel of `n` or more makes the loop the `n` fixed passes (R131 fact (2)). -/
theorem reduceLoop_eq_passes {n : Nat} (hn : n ≤ 8) {k : Nat} {acc : BitVec 16} (h : acc.toNat < 2 ^ (n + 8)) :
    reduceLoop (n + k) acc = passes n acc := by
  induction n generalizing k acc with
  | zero =>
    cases k with
    | zero => rfl
    | succ k =>
      have : ¬ 0x0100 ≤ acc := by
        rw [BitVec.le_def]
        simpa using h
      simp only [reduceLoop, this, if_false, passes]
  | succ n ih =>
    have hlt := passAt_lt (show n + 8 < 16 by omega) h
    rw [passes, ← ih (by omega) (k := k) hlt]
    have hsucc : n + 1 + k = (n + k) + 1 := by omega
    have h' : acc.toNat < 2 ^ (n + 8 + 1) := by rwa [show n + 8 + 1 = n + 1 + 8 by omega]
    by_cases hb : acc.getLsbD (n + 8) = true
    · obtain ⟨hge, hlog⟩ := log2_of_bit_set h' hb
      have hle : 0x0100 ≤ acc := by
        rw [BitVec.le_def]
        have : 2 ^ 8 ≤ 2 ^ (n + 8) := Nat.pow_le_pow_right (by decide) (by omega)
        simpa using Nat.le_trans this hge
      rw [hsucc, reduceLoop, if_pos hle, hlog, passAt, if_pos hb, Nat.add_sub_cancel]
    · have hp : passAt n acc = acc := by rw [passAt, if_neg hb]
      rw [hp] at hlt ⊢
      rw [show n + 1 + k = n + (k + 1) by omega, ih (by omega) hlt, ih (by omega) hlt]

/-- The whole reduction of any 16-bit accumulator. -/
theorem reduceLoop_eight (acc : BitVec 16) : reduceLoop 8 acc = passes 8 acc :=
  reduceLoop_eq_passes (n := 8) (k := 0) (Nat.le_refl 8) acc.isLt

/-! ### Linearity -/

theorem passAt_xor (n : Nat) (p q : BitVec 16) : passAt n (p ^^^ q) = passAt n p ^^^ passAt n q := by
  unfold passAt
  rw [BitVec.getLsbD_xor]
  cases p.getLsbD (n + 8) <;> cases q.getLsbD (n + 8) <;> simp
  · rw [BitVec.xor_assoc]
  · rw [BitVec.xor_assoc, BitVec.xor_assoc, BitVec.xor_comm q]
  · rw [show p ^^^ reducer <<< n ^^^ (q ^^^ reducer <<< n) =
        p ^^^ q ^^^ (reducer <<< n ^^^ reducer <<< n) by ac_rfl]
    simp

theorem passes_xor (n : Nat) (p q : BitVec 16) : passes n (p ^^^ q) = passes n p ^^^ passes n q := by
  induction n generalizing p q with
  | zero => rfl
  | succ n ih => rw [passes, passAt_xor, ih]; rfl

theorem reduceLoop_xor (p q : BitVec 16) : reduceLoop 8 (p ^^^ q) = reduceLoop 8 p ^^^ reduceLoop 8 q := by
  rw [reduceLoop_eight, reduceLoop_eight, reduceLoop_eight, passes_xor]

theorem zext16_xor (x x' : Byte) : zext16 (x ^^^ x') = zext16 x ^^^ zext16 x' := by
  unfold zext16
  apply BitVec.eq_of_getLsbD_eq
  intro i hi
  simp

theorem accumulate_xor_left (x x' y : Byte) (i : Nat) (acc acc' : BitVec 16) :
    accumulate (x ^^^ x') y i (acc ^^^ acc') = accumulate x y i acc ^^^ accumulate x' y i acc' := by
  induction i generalizing acc acc' with
  | zero => rfl
  | succ i ih =>
    simp only [accumulate]
    cases y.getLsbD i
    · simp [ih]
    · simp only [if_true, zext16_xor, BitVec.shiftLeft_xor_distrib]
      rw [← ih]
      congr 1
      ac_rfl

theorem accumulate_xor_right (x y y' : Byte) (i : Nat) (acc acc' : BitVec 16) :
    accumulate x (y ^^^ y') i (acc ^^^ acc') = accumulate x y i acc ^^^ accumulate x y' i acc' := by
  induction i generalizing acc acc' with
  | zero => rfl
  | succ i ih =>
    simp only [accumulate, BitVec.getLsbD_xor]
    rw [← ih]
    cases y.getLsbD i <;> cases y'.getLsbD i <;> simp
    · rw [BitVec.xor_assoc]
    · rw [BitVec.xor_assoc, BitVec.xor_assoc, BitVec.xor_comm acc']
    · rw [show acc ^^^ zext16 x <<< i ^^^ (acc' ^^^ zext16 x <<< i) =
        acc ^^^ acc' ^^^ (zext16 x <<< i ^^^ zext16 x <<< i) by ac_rfl]
      simp

/-- `PolyMul` distributes over XOR on the left. -/
theorem polyMul_xor_left (x x' y : Byte) : polyMul (x ^^^ x') y = polyMul x y ^^^ polyMul x' y := by
  unfold polyMul
  have h := accumulate_xor_left x x' y 8 0 0
  rw [show (0 : BitVec 16) ^^^ 0 = 0 from rfl] at h
  rw [h, reduceLoop_xor]
  apply BitVec.eq_of_getLsbD_eq
  intro i hi
  simp

/-- `PolyMul` distributes over XOR on the right. -/
theorem polyMul_xor_right (x y y' : Byte) : polyMul x (y ^^^ y') = polyMul x y ^^^ polyMul x y' := by
  unfold polyMul
  have h := accumulate_xor_right x y y' 8 0 0
  rw [show (0 : BitVec 16) ^^^ 0 = 0 from rfl] at h
  rw [h, reduceLoop_xor]
  apply BitVec.eq_of_getLsbD_eq
  intro i hi
  simp

end Sys2Proof.Machine
end

