-- ==== Sys2Proof/Tests/Slice0.lean ====
section
/-!
SUPPORT. The model's own tests: expected values are the spec's (the words from R60 and R63, the vectors V<n> of
95_test_vectors.md); then a witness for the hypotheses of every statement of Certificates/Slice0/Obligations.lean.
-/
namespace Sys2Proof.Tests
open Sys2Proof.Machine

/-! ### Helpers -/

/-- The responses given and `TABLE_READY`, after one step on one request. -/
def after (s : State) (w : Nat) : Option (List Response × Bool) :=
  match step (s.withFetchWord 24 w) with
  | .next t => some (t.responses, t.tableReady)
  | .fault _ => none
  | .refused _ => none

/-- Reset with `P251_OOR = NORMALIZE`. -/
def normalizing : State := { State.reset with config := { p251Oor := .normalize } }

/-- The tables built, as printed. -/
def built : State := State.reset.tablesBuilt

/-- Unbuilt tables that hold something, in canonical form. -/
def dirty : State := { State.reset with exp := [(0, 0x55), (7, 0x00)], log := [(0, 0x99), (255, 0x01)] }

/-- A state with one event presented. -/
def presenting (s : State) (event : HostEvent) : State := { s with input := [event] }

/-! ### Decoding: the words of R63, with operands 0x53 and 0xCA -/

theorem test_decode_gf2 :
    [0x0053CA, 0x0153CA, 0x0253CA, 0x0353CA, 0x0453CA].map (decodeTableWord 24) =
      [some (.gf2Isz 0x53), some (.gf2Add 0x53 0xCA), some (.gf2Mul 0x53 0xCA), some (.gf2Neg 0x53),
       some (.gf2Inv 0x53)] := by decide

theorem test_decode_f3 :
    [0x1053CA, 0x1153CA, 0x1253CA, 0x1353CA, 0x1453CA].map (decodeTableWord 24) =
      [some (.f3Isz 0x53), some (.f3Add 0x53 0xCA), some (.f3Mul 0x53 0xCA), some (.f3Neg 0x53),
       some (.f3Inv 0x53)] := by decide

theorem test_decode_p251 :
    [0x2053CA, 0x2153CA, 0x2253CA, 0x2353CA, 0x2453CA].map (decodeTableWord 24) =
      [some (.p251Isz 0x53), some (.p251Add 0x53 0xCA), some (.p251Mul 0x53 0xCA), some (.p251Neg 0x53),
       some (.p251Inv 0x53)] := by decide

theorem test_decode_f256_contract :
    [0x3053CA, 0x3153CA, 0x3253CA, 0x3353CA, 0x3453CA].map (decodeTableWord 24) =
      [some (.f256Isz 0x53), some (.f256Add 0x53 0xCA), some (.f256Mul 0x53 0xCA), some (.f256Neg 0x53),
       some (.f256Inv 0x53)] := by decide

theorem test_decode_f256_extension :
    [0x3553CA, 0x3653CA, 0x3753CA, 0x3853CA, 0x3953CA, 0x3A53CA, 0x3B53CA, 0x3C53CA, 0x3D53CA, 0x3E53CA].map
        (decodeTableWord 24) =
      [some (.f256Inv2 0x53), some (.f256Inv2f 0x53), some (.f256Sub 0x53 0xCA), some (.f256Div 0x53 0xCA),
       some (.f256Mul2 0x53 0xCA), some (.f256Pow 0x53 0xCA), some (.f256Pow2 0x53 0xCA), some (.f256Log 0x53),
       some (.f256Exp 0x53), some .f256Tgen] := by decide

/-- V234 to V246: one word for each way to be illegal. -/
theorem test_decode_refuses_illegal :
    [0x050000, 0x0F0101, 0x150100, 0x1C0100, 0x270101, 0x2E0000, 0x3F0000, 0x4253CA, 0x7253CA, 0xB253CA, 0xF253CA,
     0xFFFFFF, 0x800000].map (decodeTableWord 24) = List.replicate 13 none := by decide

/-- The refusals have names. -/
theorem test_decode_names_refusals :
    decodeCommand 0x42 0x53 0xCA = .error .reservedBits ∧ decodeCommand 0x3F 0 0 = .error .unassignedFunction := by
  exact ⟨rfl, rfl⟩

/-- R69's example, and a one-operand line with and without its ignored operand. -/
theorem test_assemble :
    assemble "F256.MUL" [0x53, 0xCA] = some 0x3253CA ∧ assemble "GF2.ISZ" [0x00] = some 0x000000 ∧
      assemble "GF2.ISZ" [0x00, 0xFF] = some 0x0000FF ∧ assemble "F256.TGEN" [] = some 0x3E0000 ∧
      assemble "F256.MUL" [0x53] = none ∧ assemble "F3.LOG" [0x01] = none := by decide +kernel

/-! ### WellFormed: for each check a term it refuses, and one it takes -/

theorem test_wellFormed_gf2 :
    (Instr.gf2Neg 0x02).wellFormed Config.standard = false ∧ (Instr.gf2Add 0x01 0x02).wellFormed Config.standard = false ∧
      (Instr.gf2Add 0x01 0x01).wellFormed Config.standard = true := by decide

theorem test_wellFormed_f3 :
    (Instr.f3Inv 0xFE).wellFormed Config.standard = false ∧ (Instr.f3Mul 0x00 0x03).wellFormed Config.standard = false ∧
      (Instr.f3Mul 0x00 0xFF).wellFormed Config.standard = true := by decide

theorem test_wellFormed_p251 :
    (Instr.p251Isz 0xFB).wellFormed Config.standard = false ∧ (Instr.p251Isz 0xFB).wellFormed ⟨.normalize⟩ = true ∧
      (Instr.p251Isz 0xFA).wellFormed Config.standard = true ∧
      (Instr.p251Add 0xFB 0xFF).wellFormed Config.standard = true := by decide

theorem test_wellFormed_log_exp :
    (Instr.f256Log 0x00).wellFormed Config.standard = false ∧ (Instr.f256Exp 0xFF).wellFormed Config.standard = false ∧
      (Instr.f256Exp 0xFE).wellFormed Config.standard = true := by decide

theorem test_requestWellFormed :
    reservedBitsClear 0x4253CA = false ∧ functionAssigned 0x250000 = false ∧ functionAssigned 0x3F0000 = false ∧
      requestWellFormed 0x3E0000 = true ∧ requestWellFormed 0x040000 = true := by decide

/-! ### The operations: vectors of 95_test_vectors.md, each one step from reset -/

/-- V15, and the unused `b` not checked. -/
theorem test_gf2Isz : after .reset 0x0000FF = some ([⟨.ok, 0x01⟩], false) := by decide
/-- V20. -/
theorem test_gf2Add : after .reset 0x010101 = some ([⟨.ok, 0x00⟩], false) := by decide
/-- V32: the domain check comes before the zero short cut. -/
theorem test_gf2Mul_domain : after .reset 0x020080 = some ([⟨.domain, 0x00⟩], false) := by decide
/-- V24. -/
theorem test_gf2Mul : after .reset 0x020101 = some ([⟨.ok, 0x01⟩], false) := by decide
/-- V26: the identity, not a flip. -/
theorem test_gf2Neg : after .reset 0x030100 = some ([⟨.ok, 0x01⟩], false) := by decide
/-- V27. -/
theorem test_gf2Inv_absent : after .reset 0x040000 = some ([⟨.absent, 0x00⟩], false) := by decide
/-- V34: DOMAIN wins over ABSENT. -/
theorem test_gf2Inv_domain : after .reset 0x040200 = some ([⟨.domain, 0x00⟩], false) := by decide

/-- V37. -/
theorem test_f3Isz : after .reset 0x10FF00 = some ([⟨.ok, 0x00⟩], false) := by decide
/-- V46: 2 + 2 = 1. -/
theorem test_f3Add : after .reset 0x11FFFF = some ([⟨.ok, 0x01⟩], false) := by decide
/-- V43: 1 + 2 = 0. -/
theorem test_f3Add_distinct : after .reset 0x1101FF = some ([⟨.ok, 0x00⟩], false) := by decide
/-- V52: 1 · 2 = 2. -/
theorem test_f3Mul : after .reset 0x1201FF = some ([⟨.ok, 0xFF⟩], false) := by decide
/-- V65. -/
theorem test_f3Mul_domain : after .reset 0x120003 = some ([⟨.domain, 0x00⟩], false) := by decide
/-- V58. -/
theorem test_f3Neg : after .reset 0x13FF00 = some ([⟨.ok, 0x01⟩], false) := by decide
/-- V61. -/
theorem test_f3Inv : after .reset 0x14FF00 = some ([⟨.ok, 0xFF⟩], false) := by decide

/-- V103, both parameter values. -/
theorem test_p251Isz :
    after .reset 0x20FB00 = some ([⟨.domain, 0x00⟩], false) ∧
      after normalizing 0x20FB00 = some ([⟨.ok, 0x01⟩], false) := by decide
/-- V79: the sum needs 9 bits. -/
theorem test_p251Add : after .reset 0x21FFFF = some ([⟨.ok, 0x08⟩], false) := by decide
/-- V88: the product needs 16 bits. -/
theorem test_p251Mul : after .reset 0x22FFFF = some ([⟨.ok, 0x10⟩], false) := by decide
/-- V90: the reduction matters only here. -/
theorem test_p251Neg : after .reset 0x230000 = some ([⟨.ok, 0x00⟩], false) := by decide
/-- V110, both parameter values. -/
theorem test_p251Neg_outOfRange :
    after .reset 0x23FF00 = some ([⟨.domain, 0x00⟩], false) ∧
      after normalizing 0x23FF00 = some ([⟨.ok, 0xF7⟩], false) := by decide
/-- V98. -/
theorem test_p251Inv : after .reset 0x240300 = some ([⟨.ok, 0x54⟩], false) := by decide +kernel
/-- V111: under NORMALIZE, 251 has no inverse. -/
theorem test_p251Inv_absent : after normalizing 0x24FB00 = some ([⟨.absent, 0x00⟩], false) := by decide

/-- V118. -/
theorem test_f256Isz : after .reset 0x30FF00 = some ([⟨.ok, 0x00⟩], false) := by decide
/-- V119. -/
theorem test_f256Add : after .reset 0x3153CA = some ([⟨.ok, 0x99⟩], false) := by decide
/-- V124. -/
theorem test_f256Sub : after .reset 0x3799CA = some ([⟨.ok, 0x53⟩], false) := by decide
/-- V127. -/
theorem test_f256Neg : after .reset 0x338000 = some ([⟨.ok, 0x80⟩], false) := by decide
/-- V149. -/
theorem test_f256Mul : after .reset 0x32B653 = some ([⟨.ok, 0x36⟩], false) := by decide
/-- V144: the highest accumulator bit. -/
theorem test_f256Mul_highest : after .reset 0x328080 = some ([⟨.ok, 0x9A⟩], false) := by decide
/-- V157. -/
theorem test_f256Inv : after .reset 0x345300 = some ([⟨.ok, 0xCA⟩], false) := by decide +kernel
/-- V153. -/
theorem test_f256Inv_absent : after .reset 0x340000 = some ([⟨.absent, 0x00⟩], false) := by decide
/-- V167: `a^254`; `a^253` would give 0x75. -/
theorem test_f256Inv2f : after .reset 0x365300 = some ([⟨.ok, 0xCA⟩], false) := by decide +kernel

/-- V185 from reset: TGEN builds the tables. -/
theorem test_f256Tgen : after .reset 0x3E0000 = some ([⟨.ok, 0x00⟩], true) := by decide +kernel
/-- V169: no table is built. -/
theorem test_f256Log_zero : after .reset 0x3C0000 = some ([⟨.domain, 0x00⟩], false) := by decide
/-- V190, from reset. -/
theorem test_f256Log : after .reset 0x3CCA00 = some ([⟨.ok, 0xCF⟩], true) := by decide +kernel
/-- V170. -/
theorem test_f256Exp_255 : after .reset 0x3DFF00 = some ([⟨.domain, 0x00⟩], false) := by decide
/-- V201, from unbuilt tables that hold something. -/
theorem test_f256Exp : after dirty 0x3DFE00 = some ([⟨.ok, 0xF6⟩], true) := by decide +kernel
/-- V171: no table is built. -/
theorem test_f256Mul2_zero : after .reset 0x390053 = some ([⟨.ok, 0x00⟩], false) := by decide
/-- V203: the sum needs 9 bits. -/
theorem test_f256Mul2 : after built 0x39F6F6 = some ([⟨.ok, 0x52⟩], true) := by decide +kernel
/-- V207: index (255 - 0) mod 255 = 0. -/
theorem test_f256Inv2_one : after built 0x350100 = some ([⟨.ok, 0x01⟩], true) := by decide +kernel
/-- V210. -/
theorem test_f256Inv2 : after built 0x355300 = some ([⟨.ok, 0xCA⟩], true) := by decide +kernel
/-- V175: 0 / 0 is absent. -/
theorem test_f256Div_zero : after .reset 0x380000 = some ([⟨.absent, 0x00⟩], false) := by decide
/-- V218. -/
theorem test_f256Div : after built 0x38FE13 = some ([⟨.ok, 0x57⟩], true) := by decide +kernel
/-- V177: 0^0 = 1. -/
theorem test_f256Pow_zero : after .reset 0x3A0000 = some ([⟨.ok, 0x01⟩], false) := by decide
/-- V222: the product needs 16 bits. -/
theorem test_f256Pow : after built 0x3A53FE = some ([⟨.ok, 0xCA⟩], true) := by decide +kernel
/-- V182: no multiplication, no table. -/
theorem test_f256Pow2_one : after .reset 0x3B5701 = some ([⟨.ok, 0x57⟩], false) := by decide
/-- V229. -/
theorem test_f256Pow2 : after built 0x3B0208 = some ([⟨.ok, 0x1B⟩], true) := by decide +kernel

/-! ### Requests and reset -/

/-- V247: ILLEGAL wins over out-of-domain operands. -/
theorem test_illegal : after .reset 0x0502FF = some ([⟨.illegal, 0x00⟩], false) := by decide

/-- R201: reset discards the tables and keeps the configuration. -/
theorem test_reset_event :
    step (presenting { built with config := { p251Oor := .normalize } } .reset) = .next normalizing := by rfl

/-- A fault is on record after the request that caused it, an absent result is not (R182, R183). -/
theorem test_faultSeen :
    (State.reset.answered ⟨.domain, 0x00⟩).faultSeen = true ∧ (State.reset.answered ⟨.absent, 0x00⟩).faultSeen = false ∧
      State.reset.faultSeen = false := by decide

/-! ### Witnesses for the hypotheses of the statements -/

/-- `s.Inv`, before the tables are built and after; with unbuilt tables of some content; with the other parameter
value. -/
theorem witness_inv : ∀ s ∈ [State.reset, built, dirty, normalizing], s.Inv := by decide +kernel

/-- Gf2UnaryOperations and Gf2BinaryOperations: each clause, at its boundary. -/
theorem witness_gf2_operands :
    ((0x00 : Byte) = 0x00 ∧ (0x01 : Byte) = 0x01 ∧ 1 < (0x02 : Byte).toNat) ∧
      ((0x01 : Byte).toNat ≤ 1 ∧ (0x00 : Byte).toNat ≤ 1) ∧ (1 < (0x00 : Byte).toNat ∨ 1 < (0x02 : Byte).toNat) := by
  decide

/-- F3UnaryOperations and F3BinaryOperations. -/
theorem witness_f3_operands :
    (1 < (0x02 : Byte).toNat ∧ (0x02 : Byte).toNat < 255) ∧ (1 < (0xFE : Byte).toNat ∧ (0xFE : Byte).toNat < 255) ∧
      (f3Field.dom 0xFF = true ∧ f3Field.dom 0x01 = true) ∧ (f3Field.dom 0x00 = false ∨ f3Field.dom 0x02 = false) := by
  decide

/-- P251UnaryOperations: in range; out of range under each parameter value; residue zero and not. -/
theorem witness_p251_operands :
    ((250 : Byte).toNat ≤ 250 ∨ State.reset.config.p251Oor = .normalize) ∧
      ((251 : Byte).toNat ≤ 250 ∨ normalizing.config.p251Oor = .normalize) ∧
      (250 < (251 : Byte).toNat ∧ State.reset.config.p251Oor = .fault) ∧
      (251 : Byte).toNat % 251 = 0 ∧ (250 : Byte).toNat % 251 ≠ 0 := by decide

/-- The F256 statements: each operand clause at its boundary, together with a state that meets the invariant. -/
theorem witness_f256_operands :
    (built.Inv ∧ dirty.Inv) ∧ built.tableReady = true ∧ ((0x01 : Byte) ≠ 0x00 ∧ (0xFF : Byte) ≠ 0x00) ∧
      (254 < (0xFF : Byte).toNat ∧ (0xFE : Byte).toNat ≤ 254) ∧ (2 ≤ (0x02 : Byte).toNat ∧ 2 ≤ (0xFF : Byte).toNat) := by
  decide +kernel

/-- BuiltTablesAreThePrintedPowersOfThree. -/
theorem witness_BuiltTables :
    dirty.exp.wf expSize = true ∧ dirty.log.wf logSize = true ∧ dirty.tableReady = false := by decide

/-- StepExecutesTheDecodedRequest, UnusedOperandBytesAreIgnored, EncodeInvertsDecodeOnUsedBits. -/
theorem witness_decoded_request :
    (presenting built (.request 0x3C5300)).input = .request 0x3C5300 :: [] ∧
      decode 0x3C5300 = .ok (.f256Log 0x53) ∧
      (0x3C5300 : ReqWord) &&& (Instr.f256Log 0x53).usedBits = 0x3C53CA &&& (Instr.f256Log 0x53).usedBits := by
  exact ⟨rfl, rfl, rfl⟩

/-- IllegalRequestsAnsweredIllegal. -/
theorem witness_illegal_request :
    (presenting built (.request 0x3F0000)).input = .request 0x3F0000 :: [] ∧ requestWellFormed 0x3F0000 = false ∧
      requestWellFormed 0x3E0000 = true := by decide

/-- AssemblerWritesTheEncoding: a name no operation has, and lines on both sides of each bound. -/
theorem witness_assembler_lines :
    (∀ i : Instr, i.mnemonic ≠ "F3.LOG") ∧
      ((Instr.f256Neg 0x01).operands.length ≤ [(0x02 : Byte), 0x03].length ∧ [(0x02 : Byte), 0x03].length ≤ 2) ∧
      (Instr.f256Tgen.operands.length ≤ ([] : List Byte).length) ∧
      [(0x02 : Byte)].length < (Instr.f256Mul 0x00 0x00).operands.length ∧ 2 < [(0x02 : Byte), 0x03, 0x04].length :=
  ⟨by intro i; cases i <;> simp [Instr.mnemonic], by decide, by decide, by decide, by decide⟩

/-- FaultyRequestsEnterTheFaultRecord: each kind of request. -/
theorem witness_faulty_requests :
    (presenting built (.request 0x3F0000)).input = .request 0x3F0000 :: [] ∧ requestWellFormed 0x3F0000 = false ∧
      (presenting built (.request 0x3C0000)).input = .request 0x3C0000 :: [] ∧
      decode 0x3C0000 = .ok (.f256Log 0x00) ∧ (Instr.f256Log 0x00).wellFormed built.config = false :=
  ⟨rfl, by decide, rfl, rfl, by decide⟩

/-- ResetLeavesTheTablesUnbuilt and OnlyResetClearsTableReady: a built state that a step leaves unbuilt. -/
theorem witness_reset_event :
    (presenting built .reset).input = .reset :: [] ∧ step (presenting built .reset) = .next .reset ∧
      (presenting built .reset).tableReady = true ∧ State.reset.tableReady = false := by
  exact ⟨rfl, rfl, rfl, rfl⟩

/-- EveryStepKeepsTheInvariant, EveryRequestIsAnsweredExactlyOnce, ConfigurationIsFixed: a state that meets the
invariant, a request, and the next state. -/
theorem witness_step :
    (presenting built (.request 0x040000)).Inv ∧ (presenting built (.request 0x040000)).input = .request 0x040000 :: [] ∧
      step (presenting built (.request 0x040000)) = .next (built.answered ⟨.absent, 0x00⟩) :=
  ⟨by decide +kernel, rfl, rfl⟩

/-- IdleStepChangesNothing. -/
theorem witness_idle : built.input = [] := by rfl

/-- ResponseDependsOnRequestAndParameterOnly: two states that differ in the tables and in what follows. -/
theorem witness_two_states :
    (presenting built (.request 0x3C5300)).Inv ∧
      ({ dirty with input := [.request 0x3C5300, .reset] } : State).Inv ∧
      (presenting built (.request 0x3C5300)).config = ({ dirty with input := [.request 0x3C5300, .reset] } : State).config ∧
      (presenting built (.request 0x3C5300)).input = .request 0x3C5300 :: [] := by decide +kernel

/-- RunAnswersEachRequestAsIfAlone. -/
theorem witness_run :
    ({ dirty with input := [.request 0x3C5300, .reset, .request 0xFFFFFF] } : State).Inv ∧
      3 = ({ dirty with input := [.request 0x3C5300, .reset, .request 0xFFFFFF] } : State).input.length := by decide

/-- BuiltTablesImmutableAndUnbuiltTablesUnread, both clauses. -/
theorem witness_tables_immutable :
    (step (presenting built (.request 0x040000)) = .next (built.answered ⟨.absent, 0x00⟩) ∧
      (presenting built (.request 0x040000)).tableReady = true) ∧
    ((presenting .reset (.request 0x3C5300)).tableReady = false ∧
      (presenting .reset (.request 0x3C5300)).exp.wf expSize = true ∧
      (presenting .reset (.request 0x3C5300)).log.wf logSize = true ∧ dirty.exp.wf expSize = true ∧
      dirty.log.wf logSize = true) :=
  ⟨⟨rfl, rfl⟩, by decide⟩

/-- ExecutionFrame: an operation that reads no table from an unbuilt state, and one that reads them from a built one. -/
theorem witness_exec_next :
    (exec (.f256Add 0x53 0xCA) dirty = .next (dirty.answered ⟨.ok, 0x99⟩) ∧
      (Instr.f256Add 0x53 0xCA).readsTables = false) ∧
    (exec .f256Tgen built = .next (built.answered ⟨.ok, 0x00⟩) ∧ built.tableReady = true) :=
  ⟨⟨rfl, rfl⟩, rfl, rfl⟩

/-- TableReadyRisesExactlyWithTableRequests, the clause about the tables. -/
theorem witness_reads_tables : dirty.Inv ∧ (Instr.f256Pow2 0x01 0x02).readsTables = true := by decide

/-- FaultsAndAbsentsLeaveNoTrace: a request whose response is not OK. -/
theorem witness_not_ok :
    step (presenting dirty (.request 0x3C0000)) = .next (dirty.answered ⟨.domain, 0x00⟩) ∧
      (dirty.answered ⟨.domain, 0x00⟩).responses = (presenting dirty (.request 0x3C0000)).responses ++ [⟨.domain, 0x00⟩] ∧
      (⟨.domain, 0x00⟩ : Response).st ≠ .ok :=
  ⟨rfl, rfl, by decide⟩

/-- DomainExactlyOnOperandsOutsideTheDomain, AbsentExactlyForTheListedCauses, OkOnAllOtherOperands: each side. -/
theorem witness_statuses :
    (Instr.f256Log 0x00).wellFormed dirty.config = false ∧ (Instr.f256Div 0x01 0x00).absentCause dirty.config = true ∧
      (Instr.p251Inv 251).absentCause normalizing.config = true ∧
      (dirty.Inv ∧ (Instr.f256Div 0x01 0x01).wellFormed dirty.config = true ∧
        (Instr.f256Div 0x01 0x01).absentCause dirty.config = false) := by decide

/-- FaultRecordKeptAndUntouchedByInDomainRequests, both clauses. -/
theorem witness_fault_record :
    (step (presenting (built.answered ⟨.domain, 0x00⟩) (.request 0x040000)) =
        .next ((built.answered ⟨.domain, 0x00⟩).answered ⟨.absent, 0x00⟩) ∧
      (presenting (built.answered ⟨.domain, 0x00⟩) (.request 0x040000)).faultSeen = true) ∧
    ((presenting dirty (.request 0x3C5300)).Inv ∧ decode 0x3C5300 = .ok (.f256Log 0x53) ∧
      (Instr.f256Log 0x53).wellFormed dirty.config = true) :=
  ⟨⟨rfl, by decide⟩, by decide, rfl, by decide⟩

/-- The laws: every field is in the list, and 0x00, 0x01 and a third element are in the domains that have one. -/
theorem witness_field_domains :
    allFields.length = 4 ∧ (allFields.all fun F => F.dom 0x00 && F.dom 0x01) = true ∧ gf2Field.dom 0x02 = false ∧
      f3Field.dom 0xFF = true ∧ p251Field.dom 250 = true ∧ f256Field.dom 0xFF = true := by decide

end Sys2Proof.Tests
end

section
/-!
One step by the event presented, and one execution by whether it reads the tables (95, section 6). An execution that
reads no table answers a response that the operation and the configuration determine, in every state; one that reads
them answers OK, with a result the operation alone determines, in every state where `EnsureTables()` gives the printed
tables. The frames and invariants of the state family are derived from these two.
-/
namespace Sys2Proof.Machine

/-! ### One step, by the event presented -/

theorem step_idle {s : State} (hin : s.input = []) : step s = .next s := by
  simp only [step, State.takeEvent_nil hin]

theorem step_reset {s : State} {rest : List HostEvent} (hin : s.input = .reset :: rest) :
    step s = .next ({ s with input := rest } : State).applyReset := by
  simp only [step, State.takeEvent_cons hin]

theorem step_decoded {s : State} {w : ReqWord} {rest : List HostEvent} {i : Instr}
    (hin : s.input = .request w :: rest) (hw : decode w = .ok i) : step s = exec i { s with input := rest } := by
  simp only [step, State.takeEvent_cons hin, hw]

theorem step_undecoded {s : State} {w : ReqWord} {rest : List HostEvent} {e : DecodeError}
    (hin : s.input = .request w :: rest) (hw : decode w = .error e) :
    step s = .next (({ s with input := rest } : State).answered ⟨.illegal, 0x00⟩) := by
  simp only [step, State.takeEvent_cons hin, hw, State.raiseIllegal_eq]

/-! ### Executions that read no table -/

/-- In every state with configuration `c`, `run` answers one and the same well-formed response and changes nothing
else. -/
def AnswersTableFree (c : Config) (run : State → Host.Outcome State Fault Refusal) : Prop :=
  ∃ r : Response, r.wf = true ∧ ∀ s : State, s.config = c → run s = .next (s.answered r)

section
variable {c : Config}

theorem answersTableFree_ok (v : Byte) : AnswersTableFree c fun s => .next (s.respondOk v) :=
  ⟨⟨.ok, v⟩, rfl, fun _ _ => rfl⟩

theorem answersTableFree_absent : AnswersTableFree c fun s => .next s.respondAbsent :=
  ⟨⟨.absent, 0x00⟩, rfl, fun _ _ => rfl⟩

theorem answersTableFree_domain : AnswersTableFree c fun s => .next s.raiseDomain :=
  ⟨⟨.domain, 0x00⟩, rfl, fun _ _ => rfl⟩

theorem answersTableFree_ite {p : Prop} [Decidable p] {run run' : State → Host.Outcome State Fault Refusal}
    (hrun : AnswersTableFree c run) (hrun' : AnswersTableFree c run') :
    AnswersTableFree c fun s => if p then run s else run' s := by
  by_cases hp : p
  · simpa only [if_pos hp] using hrun
  · simpa only [if_neg hp] using hrun'

theorem answersTableFree_checkDomain (inDomain : Bool) {run : State → Host.Outcome State Fault Refusal}
    (hrun : AnswersTableFree c run) : AnswersTableFree c fun s => checkDomain inDomain s (run s) :=
  answersTableFree_ite hrun answersTableFree_domain

theorem answersTableFree_finishSearch (found : Option Byte) : AnswersTableFree c fun s => finishSearch found s := by
  cases found with
  | none => exact answersTableFree_absent
  | some x => exact answersTableFree_ok x

theorem answersTableFree_withP251Operand (a : Byte) {run : Byte → State → Host.Outcome State Fault Refusal}
    (hrun : ∀ x, AnswersTableFree c (run x)) :
    AnswersTableFree c fun s => withP251Operand a s fun x => run x s := by
  match hop : p251Operand c.p251Oor a with
  | some x =>
    obtain ⟨r, hr, hnext⟩ := hrun x
    exact ⟨r, hr, fun s hs => by simp only [withP251Operand, hs, hop, hnext s hs]⟩
  | none => exact ⟨⟨.domain, 0x00⟩, rfl, fun s hs => by simp only [withP251Operand, hs, hop, State.raiseDomain_eq]⟩

end

/-- A zero base stays zero and touches no table, whatever the exponent (R162). -/
theorem repeatMul2_zero (n : Nat) (s : State) : repeatMul2 0x00 n 0x00 s = .ok (0x00, s) := by
  induction n with
  | zero => rfl
  | succ n ih => simp only [repeatMul2, mul2_zero s (.inl rfl), ih]

/-- An operation outside the spec's list of table readers needs no table, in any state. -/
theorem exec_answersTableFree {i : Instr} (hi : i.readsTables = false) (c : Config) :
    AnswersTableFree c (exec i) := by
  cases i with
  | gf2Isz a | gf2Neg a | f3Isz a | f3Neg a => exact answersTableFree_checkDomain _ (answersTableFree_ok _)
  | gf2Add a b | gf2Mul a b | f3Add a b | f3Mul a b =>
    exact answersTableFree_checkDomain _ (answersTableFree_ok _)
  | gf2Inv a | f3Inv a =>
    exact answersTableFree_checkDomain _ (answersTableFree_ite answersTableFree_absent (answersTableFree_ok _))
  | p251Isz a | p251Neg a => exact answersTableFree_withP251Operand a fun _ => answersTableFree_ok _
  | p251Inv a =>
    exact answersTableFree_withP251Operand a fun _ =>
      answersTableFree_ite answersTableFree_absent (answersTableFree_finishSearch _)
  | p251Add a b | p251Mul a b | f256Add a b | f256Sub a b | f256Mul a b => exact answersTableFree_ok _
  | f256Isz a | f256Neg a => exact answersTableFree_ok _
  | f256Inv a => exact answersTableFree_ite answersTableFree_absent (answersTableFree_finishSearch _)
  | f256Inv2f a => exact answersTableFree_ite answersTableFree_absent (answersTableFree_ok _)
  | f256Inv2 a =>
    obtain rfl : a = 0x00 := by simpa [Instr.readsTables] using hi
    exact answersTableFree_absent
  | f256Log a =>
    obtain rfl : a = 0x00 := by simpa [Instr.readsTables] using hi
    exact answersTableFree_domain
  | f256Exp e =>
    obtain rfl : e = 0xFF := by simpa [Instr.readsTables] using hi
    exact answersTableFree_domain
  | f256Mul2 a b =>
    have hzero : a = 0x00 ∨ b = 0x00 := by simpa [Instr.readsTables, or_iff_not_imp_left] using hi
    exact ⟨⟨.ok, 0x00⟩, rfl, fun s _ => by simp only [exec, execF256Mul2, mul2_zero s hzero]; rfl⟩
  | f256Div a b =>
    have hzero : a ≠ 0x00 → b = 0x00 := by simpa [Instr.readsTables] using hi
    by_cases ha : a = 0x00
    · subst ha
      exact answersTableFree_ite answersTableFree_absent (answersTableFree_ok _)
    · obtain rfl := hzero ha
      exact answersTableFree_absent
  | f256Pow a e =>
    have hzero : a ≠ 0x00 → e = 0x00 := by simpa [Instr.readsTables] using hi
    by_cases ha : a = 0x00
    · subst ha
      exact answersTableFree_ite (answersTableFree_ok _) (answersTableFree_ok _)
    · obtain rfl := hzero ha
      exact answersTableFree_ok _
  | f256Pow2 a e =>
    have hone : a ≠ 0x00 → e.toNat ≤ 1 := by simpa [Instr.readsTables] using hi
    refine answersTableFree_ite (answersTableFree_ok _) ?_
    by_cases ha : a = 0x00
    · subst ha
      exact ⟨⟨.ok, 0x00⟩, rfl, fun s _ => by simp only [repeatMul2_zero]; rfl⟩
    · have he : e.toNat - 1 = 0 := Nat.sub_eq_zero_of_le (hone ha)
      exact ⟨⟨.ok, a⟩, rfl, fun s _ => by rw [he]; rfl⟩
  | f256Tgen => cases hi

/-! ### Executions that read the tables -/

/-- `EnsureTables()` leaves the printed tables in `s`: they stand there already, or `s` is unbuilt and canonical. Unlike
`State.Inv` it asks nothing of the responses, as R33's statement about unbuilt tables does not. -/
def State.EnsuresPrinted (s : State) : Prop := ensureTables s = s.tablesBuilt

theorem State.Inv.ensuresPrinted {s : State} (h : s.Inv) : s.EnsuresPrinted := ensureTables_of_inv h

theorem State.ensuresPrinted_of_unbuilt {s : State} (hready : s.tableReady = false)
    (he : s.exp.wf expSize = true) (hl : s.log.wf logSize = true) : s.EnsuresPrinted := by
  rw [State.EnsuresPrinted, ensureTables, if_neg (by simp [hready]), genTables_tablesBuilt he hl]

theorem State.tablesBuilt_ensuresPrinted (s : State) : s.tablesBuilt.EnsuresPrinted :=
  ensureTables_of_ready rfl

section
variable {s : State}

theorem lookupLog_of_ensuresPrinted (hs : s.EnsuresPrinted) {a : Byte} (ha : a ≠ 0x00) :
    lookupLog a s = .ok (logEntry a, s.tablesBuilt) := by
  rw [State.EnsuresPrinted] at hs
  simp only [lookupLog, hs, readLog_tablesBuilt s ha]

theorem lookupExp_of_ensuresPrinted (hs : s.EnsuresPrinted) {i : Nat} (hi : i ≤ 254) :
    lookupExp i s = .ok (expEntry i, s.tablesBuilt) := by
  rw [State.EnsuresPrinted] at hs
  simp only [lookupExp, hs, readExp_tablesBuilt s hi]

theorem lookupThroughLog_of_ensuresPrinted (hs : s.EnsuresPrinted) (k : BitVec 16 → BitVec 16) {a : Byte}
    (ha : a ≠ 0x00) :
    lookupThroughLog k a s = .ok (expEntry ((k (zext16 (logEntry a))).toNat % 255), s.tablesBuilt) := by
  have hindex : (k (zext16 (logEntry a)) % 255).toNat = (k (zext16 (logEntry a))).toNat % 255 := BitVec.toNat_umod
  have hbound : (k (zext16 (logEntry a))).toNat % 255 ≤ 254 := by omega
  simp only [lookupThroughLog, lookupLog_of_ensuresPrinted hs ha, hindex,
    lookupExp_of_ensuresPrinted s.tablesBuilt_ensuresPrinted hbound, State.tablesBuilt_tablesBuilt]

/-- The sum of two logarithms does not wrap in 16 bits. -/
theorem toNat_zext16_add (x y : Byte) : (zext16 x + zext16 y).toNat = x.toNat + y.toNat := by
  have := x.isLt
  have := y.isLt
  simp only [zext16, BitVec.toNat_add, BitVec.truncate_eq_setWidth, BitVec.toNat_setWidth]
  omega

theorem mul2_of_ensuresPrinted (hs : s.EnsuresPrinted) {x y : Byte} (hx : x ≠ 0x00) (hy : y ≠ 0x00) :
    mul2 x y s = .ok (printedMul2 x y, s.tablesBuilt) := by
  have hxy : ¬ (x = 0x00 ∨ y = 0x00) := not_or.2 ⟨hx, hy⟩
  simp only [mul2, printedMul2, if_neg hxy, lookupLog_of_ensuresPrinted hs hx,
    lookupThroughLog_of_ensuresPrinted s.tablesBuilt_ensuresPrinted _ hy, State.tablesBuilt_tablesBuilt,
    toNat_zext16_add]

theorem mul2_tablesBuilt (x y : Byte) (s : State) :
    mul2 x y s.tablesBuilt = .ok (printedMul2 x y, s.tablesBuilt) := by
  by_cases hxy : x = 0x00 ∨ y = 0x00
  · rw [mul2_zero _ hxy, printedMul2, if_pos hxy]
  · obtain ⟨hx, hy⟩ := not_or.1 hxy
    exact mul2_of_ensuresPrinted s.tablesBuilt_ensuresPrinted hx hy

theorem repeatMul2_tablesBuilt (a : Byte) (n : Nat) (acc : Byte) (s : State) :
    repeatMul2 a n acc s.tablesBuilt = .ok ((fun acc => printedMul2 acc a)^[n] acc, s.tablesBuilt) := by
  induction n generalizing acc with
  | zero => rfl
  | succ n ih => simp only [repeatMul2, mul2_tablesBuilt, ih, Function.iterate_succ_apply]

/-- With a nonzero base and at least one multiplication, the first one builds the tables (R162). -/
theorem repeatMul2_of_ensuresPrinted (hs : s.EnsuresPrinted) {a : Byte} (ha : a ≠ 0x00) {n : Nat} (hn : n ≠ 0) :
    repeatMul2 a n a s = .ok ((fun acc => printedMul2 acc a)^[n] a, s.tablesBuilt) := by
  obtain ⟨n, rfl⟩ := Nat.exists_eq_succ_of_ne_zero hn
  simp only [repeatMul2, mul2_of_ensuresPrinted hs ha ha, repeatMul2_tablesBuilt, Function.iterate_succ_apply]

end

/-- An operation of the spec's list of table readers builds the tables and answers OK; its result depends on nothing
that the state holds. -/
theorem exec_answersFromTables {i : Instr} (hi : i.readsTables = true) :
    ∃ v : Byte, ∀ s : State, s.EnsuresPrinted → exec i s = .next (s.tablesBuilt.answered ⟨.ok, v⟩) := by
  cases i with
  | f256Tgen =>
    refine ⟨0x00, fun s hs => ?_⟩
    rw [State.EnsuresPrinted] at hs
    simp only [exec, execF256Tgen, hs, State.respondOk_eq]
  | f256Log a =>
    have ha : a ≠ 0x00 := by simpa [Instr.readsTables] using hi
    have hvalid : logOperandValid a = true := bne_iff_ne.2 ha
    exact ⟨_, fun s hs => by
      simp only [exec, execF256Log, checkDomain, if_pos hvalid, lookupLog_of_ensuresPrinted hs ha]; rfl⟩
  | f256Exp e =>
    have he : e.toNat ≤ 254 := by
      have : e ≠ 0xFF := by simpa [Instr.readsTables] using hi
      bv_omega
    have hvalid : expOperandValid e = true := decide_eq_true (BitVec.le_def.2 he)
    exact ⟨_, fun s hs => by
      simp only [exec, execF256Exp, checkDomain, if_pos hvalid, lookupExp_of_ensuresPrinted hs he]; rfl⟩
  | f256Mul2 a b =>
    obtain ⟨ha, hb⟩ : a ≠ 0x00 ∧ b ≠ 0x00 := by simpa [Instr.readsTables] using hi
    exact ⟨_, fun s hs => by simp only [exec, execF256Mul2, mul2_of_ensuresPrinted hs ha hb]; rfl⟩
  | f256Inv2 a =>
    have ha : a ≠ 0x00 := by simpa [Instr.readsTables] using hi
    exact ⟨_, fun s hs => by
      simp only [exec, execF256Inv2, if_neg ha, tableInverse, lookupThroughLog_of_ensuresPrinted hs _ ha]; rfl⟩
  | f256Div a b =>
    obtain ⟨ha, hb⟩ : a ≠ 0x00 ∧ b ≠ 0x00 := by simpa [Instr.readsTables] using hi
    exact ⟨_, fun s hs => by
      simp only [exec, execF256Div, if_neg ha, if_neg hb, tableInverse,
        lookupThroughLog_of_ensuresPrinted hs _ hb]; rfl⟩
  | f256Pow a e =>
    obtain ⟨ha, he⟩ : a ≠ 0x00 ∧ e ≠ 0x00 := by simpa [Instr.readsTables] using hi
    exact ⟨_, fun s hs => by
      simp only [exec, execF256Pow, if_neg ha, if_neg he, lookupThroughLog_of_ensuresPrinted hs _ ha]; rfl⟩
  | f256Pow2 a e =>
    obtain ⟨ha, he⟩ : a ≠ 0x00 ∧ 2 ≤ e.toNat := by simpa [Instr.readsTables] using hi
    have he0 : e ≠ 0x00 := by rintro rfl; simp at he
    have hn : e.toNat - 1 ≠ 0 := by omega
    exact ⟨_, fun s hs => by
      simp only [exec, execF256Pow2, if_neg he0, repeatMul2_of_ensuresPrinted hs ha hn]; rfl⟩
  | _ => cases hi

/-! ### Every execution -/

/-- In a state that meets the invariant every operation answers once, and it leaves the tables built exactly if it is
one of the spec's list; nothing else changes. -/
theorem exec_of_inv {s : State} (h : s.Inv) (i : Instr) :
    ∃ r : Response, r.wf = true ∧ exec i s = .next ((if i.readsTables then s.tablesBuilt else s).answered r) := by
  cases hi : i.readsTables with
  | true =>
    obtain ⟨v, hv⟩ := exec_answersFromTables hi
    exact ⟨⟨.ok, v⟩, rfl, hv s h.ensuresPrinted⟩
  | false =>
    obtain ⟨r, hr, hnext⟩ := exec_answersTableFree hi s.config
    exact ⟨r, hr, hnext s rfl⟩

/-- In every state with unbuilt tables in canonical form, an operation does the same whatever the two tables hold. -/
theorem exec_swapTables {s : State} (hready : s.tableReady = false) (he : s.exp.wf expSize = true)
    (hl : s.log.wf logSize = true) {e l : Memory} (he' : e.wf expSize = true) (hl' : l.wf logSize = true)
    (i : Instr) :
    ∃ r : Response,
      (exec i s = .next (s.answered r) ∧
        exec i { s with exp := e, log := l } = .next (({ s with exp := e, log := l } : State).answered r)) ∨
      (exec i s = .next (s.tablesBuilt.answered r) ∧
        exec i { s with exp := e, log := l } = .next (s.tablesBuilt.answered r)) := by
  cases hi : i.readsTables with
  | true =>
    obtain ⟨v, hv⟩ := exec_answersFromTables hi
    exact ⟨⟨.ok, v⟩, .inr ⟨hv s (State.ensuresPrinted_of_unbuilt hready he hl),
      hv { s with exp := e, log := l } (State.ensuresPrinted_of_unbuilt hready he' hl')⟩⟩
  | false =>
    obtain ⟨r, -, hnext⟩ := exec_answersTableFree hi s.config
    exact ⟨r, .inl ⟨hnext s rfl, hnext { s with exp := e, log := l } rfl⟩⟩

/-- A request presented in a state that meets the invariant is answered by one well-formed response. -/
theorem step_request_of_inv {s : State} (hs : s.Inv) {w : ReqWord} {rest : List HostEvent}
    (hin : s.input = .request w :: rest) :
    ∃ (t : State) (r : Response), step s = .next t ∧ t.input = rest ∧ t.responses = s.responses ++ [r] ∧
      r.wf = true := by
  cases hw : decode w with
  | error e => exact ⟨_, ⟨.illegal, 0x00⟩, step_undecoded hin hw, rfl, rfl, rfl⟩
  | ok i =>
    obtain ⟨r, hr, hexec⟩ := exec_of_inv (s := { s with input := rest }) hs i
    refine ⟨_, r, (step_decoded hin hw).trans hexec, ?_, ?_, hr⟩ <;> cases i.readsTables <;> rfl

/-- A well-formed response that is not OK carries 0x00 (R24). -/
theorem Response.r_eq_zero_of_wf {r : Response} (hwf : r.wf = true) (hst : r.st ≠ .ok) : r.r = 0x00 := by
  simpa [Response.wf, hst] using hwf

/-! ### What one answer keeps -/

section
variable {s t : State}

theorem AnswersOnce.frame (h : AnswersOnce s t) :
    t.config = s.config ∧ t.input = s.input ∧ ∃ r, t.responses = s.responses ++ [r] := by
  obtain ⟨r, -, rfl | ⟨-, rfl⟩⟩ := h
  · exact ⟨rfl, rfl, r, rfl⟩
  · obtain ⟨hconfig, hinput, hresponses⟩ := ensureTables_frame s
    exact ⟨hconfig, hinput, r, congrArg (· ++ [r]) hresponses⟩

/-- Once the tables are built a request adds its response and changes nothing (R33). -/
theorem AnswersOnce.of_ready (h : AnswersOnce s t) (hready : s.tableReady = true) : ∃ r, t = s.answered r := by
  obtain ⟨r, -, rfl | ⟨-, rfl⟩⟩ := h
  · exact ⟨r, rfl⟩
  · exact ⟨r, by rw [ensureTables_of_ready hready]⟩

theorem AnswersOnce.inv (h : AnswersOnce s t) (hs : s.Inv) : t.Inv := by
  obtain ⟨r, hr, rfl | ⟨-, rfl⟩⟩ := h
  · exact State.answered_inv hs hr
  · rw [ensureTables_of_inv hs]
    exact State.answered_inv (State.tablesBuilt_inv hs) hr

theorem State.applyReset_inv (hs : s.Inv) : s.applyReset.Inv := by
  obtain ⟨-, -, -, hresponses⟩ := hs
  exact ⟨rfl, rfl, nofun, hresponses⟩

end

/-! ### Unbuilt tables cannot be read -/

theorem State.readExp_of_unbuilt {s : State} (h : s.tableReady = false) (i : Nat) :
    s.readExp i = .error .tablesNotReady := by
  simp [State.readExp, h]

theorem State.readLog_of_unbuilt {s : State} (h : s.tableReady = false) (i : Nat) :
    s.readLog i = .error .tablesNotReady := by
  simp [State.readLog, h]

end Sys2Proof.Machine
end

section
/-!
The obligations of the state family (10_state.md).
-/
namespace Sys2Proof.Machine

/-- Settles O32: what a step can do is wait, reset or answer once, and each keeps the invariant. -/
theorem everyStepKeepsTheInvariant : Obligations.EveryStepKeepsTheInvariant := by
  intro s t hs hstep
  rcases step_cases hstep with ⟨-, rfl⟩ | ⟨rest, -, rfl⟩ | ⟨w, rest, -, hanswer⟩
  · exact hs
  · exact State.applyReset_inv (s := { s with input := rest }) hs
  · exact hanswer.inv hs

/-- Settles O33: the outcome of a step, event by event. -/
theorem everyRequestIsAnsweredExactlyOnce : Obligations.EveryRequestIsAnsweredExactlyOnce := by
  intro s hs
  constructor
  · intro hpresented
    match hin : s.input with
    | [] => exact absurd hin hpresented
    | .reset :: rest => exact ⟨_, step_reset hin⟩
    | .request w :: rest =>
      obtain ⟨t, r, hstep, -⟩ := step_request_of_inv hs hin
      exact ⟨t, hstep⟩
  · intro w rest hin
    obtain ⟨t, r, hstep, hinput, hresponses, hwf⟩ := step_request_of_inv hs hin
    exact ⟨t, r, hstep, hinput, hresponses, Response.r_eq_zero_of_wf hwf⟩

/-- Settles O37: `exec_of_inv` gives the next state, built exactly for the operations of the list. -/
theorem tableReadyRisesExactlyWithTableRequests : Obligations.TableReadyRisesExactlyWithTableRequests := by
  intro s i hs
  obtain ⟨r, -, hexec⟩ := exec_of_inv hs i
  refine ⟨_, hexec, ?_, rfl, ?_⟩
  · cases i.readsTables <;> simp
  · intro hi
    simp [hi]

/-- Settles O38: waiting and answering keep `TABLE_READY = 1`, so only a reset is left. -/
theorem onlyResetClearsTableReady : Obligations.OnlyResetClearsTableReady := by
  intro s t hstep hready hcleared
  rcases step_cases hstep with ⟨-, rfl⟩ | ⟨rest, hin, -⟩ | ⟨w, rest, -, hanswer⟩
  · simp [hready] at hcleared
  · exact ⟨rest, hin⟩
  · obtain ⟨r, rfl⟩ := hanswer.of_ready hready
    simp [hready] at hcleared

/-- Settles O39: an answer from built tables changes no table; an answer from unbuilt ones is the same after their
content is swapped. -/
theorem builtTablesImmutableAndUnbuiltTablesUnread : Obligations.BuiltTablesImmutableAndUnbuiltTablesUnread := by
  constructor
  · intro s t w rest hin hstep hready k
    rcases step_cases hstep with ⟨-, rfl⟩ | ⟨rest', hin', -⟩ | ⟨w', rest', -, hanswer⟩
    · exact ⟨rfl, rfl⟩
    · simp [hin] at hin'
    · obtain ⟨r, rfl⟩ := hanswer.of_ready hready
      exact ⟨rfl, rfl⟩
  · intro s w rest e l hin hready he hl he' hl'
    have hin' : ({ s with exp := e, log := l } : State).input = .request w :: rest := hin
    cases hw : decode w with
    | error err =>
      exact ⟨_, _, step_undecoded hin hw, step_undecoded hin' hw, rfl, rfl, by simp [hready], by simp⟩
    | ok i =>
      obtain ⟨r, ⟨hexec, hexec'⟩ | ⟨hexec, hexec'⟩⟩ :=
        exec_swapTables (s := { s with input := rest }) hready he hl he' hl' i
      · exact ⟨_, _, (step_decoded hin hw).trans hexec, (step_decoded hin' hw).trans hexec', rfl, rfl,
          by simp [hready], by simp⟩
      · exact ⟨_, _, (step_decoded hin hw).trans hexec, (step_decoded hin' hw).trans hexec', rfl, rfl,
          by simp, by simp⟩

/-- Settles O40: one answer, and no table touched where none is read or all are built. -/
theorem executionFrame : Obligations.ExecutionFrame := by
  intro i s t hexec
  obtain ⟨hconfig, hinput, hresponses⟩ := (exec_answersOnce hexec).frame
  refine ⟨hconfig, hinput, hresponses, fun hkeep => ?_⟩
  obtain ⟨r, rfl⟩ : ∃ r, t = s.answered r := by
    rcases hkeep with hi | hready
    · obtain ⟨r, -, hnext⟩ := exec_answersTableFree hi s.config
      rw [hnext s rfl] at hexec
      cases hexec
      exact ⟨r, rfl⟩
    · exact (exec_answersOnce hexec).of_ready hready
  exact ⟨rfl, fun _ => ⟨rfl, rfl⟩⟩

/-- Settles O45: waiting, reset and answering all keep the configuration. -/
theorem configurationIsFixed : Obligations.ConfigurationIsFixed := by
  intro s t hstep
  rcases step_cases hstep with ⟨-, rfl⟩ | ⟨rest, -, rfl⟩ | ⟨w, rest, -, hanswer⟩
  · rfl
  · rfl
  · exact hanswer.frame.1

/-- Settles O21. -/
theorem stepExecutesTheDecodedRequest : Obligations.StepExecutesTheDecodedRequest :=
  fun _ _ _ _ hin hw => step_decoded hin hw

/-- Settles O29: the codes are read off, `tbl_rdy` by the two values of `TABLE_READY`. -/
theorem portEncodings : Obligations.PortEncodings := by
  refine ⟨⟨rfl, rfl, rfl, rfl⟩, ⟨rfl, rfl⟩, fun s => ?_⟩
  cases hready : s.tableReady <;> simp [State.tblRdy, hready]

/-- Settles O30: with `TABLE_READY = 0` every table read is an error, after `State.reset` and after a reset event. -/
theorem resetLeavesTheTablesUnbuilt : Obligations.ResetLeavesTheTablesUnbuilt := by
  have unreadable : ∀ t : State, t.tableReady = false →
      ∀ i : Nat, (∃ f, t.readExp i = .error f) ∧ ∃ f, t.readLog i = .error f :=
    fun t ht i => ⟨⟨_, State.readExp_of_unbuilt ht i⟩, ⟨_, State.readLog_of_unbuilt ht i⟩⟩
  refine ⟨⟨rfl, rfl, rfl, unreadable _ rfl⟩, fun s rest hin => ?_⟩
  exact ⟨_, step_reset hin, rfl, rfl, unreadable _ rfl, rfl, rfl, rfl⟩

/-- Settles O31: the tables are empty and unbuilt, and nothing has been answered. -/
theorem resetMeetsTheInvariant : Obligations.ResetMeetsTheInvariant :=
  ⟨rfl, rfl, nofun, rfl⟩

/-- Settles O34. -/
theorem idleStepChangesNothing : Obligations.IdleStepChangesNothing :=
  fun _ hin => step_idle hin

end Sys2Proof.Machine
end

section
/-!
The obligations of the memory family (20_memory.md). A request and the configuration determine one response, given in
every state that meets the invariant; so the answers of a run do not depend on where in the run each request stands.
-/
namespace Sys2Proof.Machine

/-! ### The response to a request, one for all states -/

/-- `exec_of_inv` with the response chosen before the state: the operation and the configuration determine it. -/
theorem exec_response (c : Config) (i : Instr) :
    ∃ r : Response, ∀ s : State, s.Inv → s.config = c →
      exec i s = .next ((if i.readsTables then s.tablesBuilt else s).answered r) := by
  cases hi : i.readsTables with
  | true =>
    obtain ⟨v, hnext⟩ := exec_answersFromTables hi
    exact ⟨⟨.ok, v⟩, fun s hs _ => hnext s hs.ensuresPrinted⟩
  | false =>
    obtain ⟨r, -, hnext⟩ := exec_answersTableFree hi c
    exact ⟨r, fun s _ hc => hnext s hc⟩

/-- The request word and the configuration determine the response of a step (R49 (a)). -/
theorem step_request_response (c : Config) (w : ReqWord) :
    ∃ r : Response, ∀ (s : State) (rest : List HostEvent), s.Inv → s.config = c → s.input = .request w :: rest →
      ∃ t : State, step s = .next t ∧ t.input = rest ∧ t.responses = s.responses ++ [r] := by
  cases hw : decode w with
  | error e => exact ⟨⟨.illegal, 0x00⟩, fun s rest _ _ hin => ⟨_, step_undecoded hin hw, rfl, rfl⟩⟩
  | ok i =>
    obtain ⟨r, hexec⟩ := exec_response c i
    refine ⟨r, fun s rest hs hc hin =>
      ⟨_, (step_decoded hin hw).trans (hexec { s with input := rest } hs hc), ?_, ?_⟩⟩ <;>
      cases i.readsTables <;> rfl

/-- Settles O35: both states give the response that the word and their common configuration determine. -/
theorem responseDependsOnRequestAndParameterOnly : Obligations.ResponseDependsOnRequestAndParameterOnly := by
  intro s t w rs rt hs ht hconfig hins hint
  obtain ⟨r, hanswer⟩ := step_request_response t.config w
  obtain ⟨s', hstep, -, hresponses⟩ := hanswer s rs hs hconfig hins
  obtain ⟨t', hstep', -, hresponses'⟩ := hanswer t rt ht rfl hint
  exact ⟨r, s', t', hstep, hstep', hresponses, hresponses'⟩

/-! ### Answers of single events -/

theorem State.answersWord_of_step {s t : State} {w : ReqWord} {r : Response}
    (hstep : step { s with input := [.request w] } = .next t) (ht : t.responses = s.responses ++ [r]) :
    s.answersWord w = [r] := by
  simp only [State.answersWord, hstep, ht, List.drop_left]

/-- `step_request_response` as a statement about `answersWord`: what `w` is answered alone. -/
theorem State.answersWord_response (c : Config) (w : ReqWord) :
    ∃ r : Response, ∀ s : State, s.Inv → s.config = c → s.answersWord w = [r] ∧
      ∀ rest : List HostEvent, s.input = .request w :: rest →
        ∃ t : State, step s = .next t ∧ t.input = rest ∧ t.responses = s.responses ++ [r] := by
  obtain ⟨r, hanswer⟩ := step_request_response c w
  refine ⟨r, fun s hs hc => ⟨?_, fun rest hin => hanswer s rest hs hc hin⟩⟩
  obtain ⟨t, hstep, -, ht⟩ := hanswer { s with input := [.request w] } [] hs hc rfl
  exact State.answersWord_of_step hstep ht

/-- The responses that one event, presented alone in `s`, adds: a reset is answered nothing. -/
def State.answersEvent (s : State) : HostEvent → List Response
  | .request w => s.answersWord w
  | .reset => []

/-- What an event is answered alone depends on the configuration only. -/
theorem State.answersEvent_congr {s t : State} (hs : s.Inv) (ht : t.Inv) (hconfig : s.config = t.config) :
    s.answersEvent = t.answersEvent := by
  funext event
  cases event with
  | reset => rfl
  | request w =>
    obtain ⟨r, hanswer⟩ := State.answersWord_response t.config w
    exact (hanswer s hs hconfig).1.trans (hanswer t ht rfl).1.symm

/-- One step takes the first event and adds what that event is answered alone. -/
theorem step_event {s : State} (hs : s.Inv) {event : HostEvent} {rest : List HostEvent}
    (hin : s.input = event :: rest) :
    ∃ t : State, step s = .next t ∧ t.input = rest ∧ t.responses = s.responses ++ s.answersEvent event := by
  cases event with
  | reset => exact ⟨_, step_reset hin, rfl, (List.append_nil _).symm⟩
  | request w =>
    obtain ⟨r, hanswer⟩ := State.answersWord_response s.config w
    obtain ⟨halone, hnext⟩ := hanswer s hs rfl
    simpa only [State.answersEvent, halone] using hnext rest hin

/-! ### Runs -/

theorem run_succ_of_step {s t : State} (hstep : step s = .next t) (n : Nat) :
    Host.Core.run Sys2Proof.core (n + 1) s = Host.Core.run Sys2Proof.core n t := by
  have hcore : Sys2Proof.core.step s = .next t := hstep
  simp only [Host.Core.run, hcore]

/-- A run over the whole input adds, event by event, what each is answered alone in the state the run starts from. -/
theorem run_input_of_inv (events : List HostEvent) {s : State} (hs : s.Inv) (hin : s.input = events) :
    ∃ t : State, Host.Core.run Sys2Proof.core events.length s = .next t ∧ t.input = [] ∧
      t.responses = s.responses ++ events.flatMap s.answersEvent := by
  induction events generalizing s with
  | nil => exact ⟨s, rfl, hin, (List.append_nil _).symm⟩
  | cons event rest ih =>
    obtain ⟨u, hstep, hrest, hfirst⟩ := step_event hs hin
    have hu : u.Inv := everyStepKeepsTheInvariant s u hs hstep
    have halone : u.answersEvent = s.answersEvent :=
      State.answersEvent_congr hu hs (configurationIsFixed s u hstep)
    obtain ⟨t, hrun, hdone, hlater⟩ := ih hu hrest
    refine ⟨t, (run_succ_of_step hstep rest.length).trans hrun, hdone, ?_⟩
    rw [hlater, hfirst, halone, List.flatMap_cons, List.append_assoc]

/-- Settles O36: the run over the input, its events answered as `State.answersEvent` says. -/
theorem runAnswersEachRequestAsIfAlone : Obligations.RunAnswersEachRequestAsIfAlone := by
  rintro s _ hs rfl
  exact run_input_of_inv s.input hs rfl

end Sys2Proof.Machine
end

section
/-!
The laws of the encoding (30_encoding.md). One equivalence says what the decoder reads from a request
(`decodeCommand_eq_ok_iff`); read over words it says that a word decodes to an instruction exactly when the two agree
on the bits the instruction uses (`decode_eq_ok_iff`).
-/
namespace Sys2Proof
open Laws.Layout

/-! ### Requests as three bytes -/

/-- Every request is `{cmd, a, b}` (R60). -/
theorem requestWord_fields (w : ReqWord) : requestWord (commandOf w) (operandAOf w) (operandBOf w) = w := by
  apply BitVec.eq_of_toNat_eq
  rw [requestWord_toNat, commandOf, operandAOf, operandBOf, BitVec.extractLsb'_toNat, BitVec.extractLsb'_toNat,
    BitVec.extractLsb'_toNat, Nat.shiftRight_eq_div_pow, Nat.shiftRight_eq_div_pow]
  have := w.isLt
  simp only [Nat.shiftRight_zero]
  omega

theorem requestWord_inj {cmd a b cmd' a' b' : Byte} :
    requestWord cmd a b = requestWord cmd' a' b' ↔ cmd = cmd' ∧ a = a' ∧ b = b' := by
  constructor
  · intro h
    exact ⟨by simpa using congrArg commandOf h, by simpa using congrArg operandAOf h,
      by simpa using congrArg operandBOf h⟩
  · rintro ⟨rfl, rfl, rfl⟩
    rfl

/-- Masking a request masks its three bytes. -/
theorem requestWord_and (cmd a b cmd' a' b' : Byte) :
    requestWord cmd a b &&& requestWord cmd' a' b' = requestWord (cmd &&& cmd') (a &&& a') (b &&& b') :=
  (BitVec.and_append (x₁ := cmd ++ a) (y₁ := b)).trans (congrArg (· ++ (b &&& b')) BitVec.and_append)

theorem byte_and_0xFF (x : Byte) : x &&& 255#8 = x := BitVec.and_allOnes

/-- The command byte from its three fields (R61). -/
theorem command_toNat_of_fields (cmd : Byte) :
    cmd.toNat = (reservedOf cmd).toNat * 64 + (fieldOf cmd).toNat * 16 + (functionOf cmd).toNat := by
  rw [reservedOf, fieldOf, functionOf, BitVec.extractLsb'_toNat, BitVec.extractLsb'_toNat, BitVec.extractLsb'_toNat,
    Nat.shiftRight_eq_div_pow, Nat.shiftRight_eq_div_pow]
  have := cmd.isLt
  simp only [Nat.shiftRight_zero]
  omega

/-! ### What the decoder reads -/

@[simp] theorem decode_requestWord (cmd a b : Byte) : decode (requestWord cmd a b) = decodeCommand cmd a b := by
  simp [decode]

/-- The operand bytes an instruction uses are those of the request, first `a`, then `b` (R64). -/
def Instr.ReadsOperands (i : Instr) (a b : Byte) : Prop := i.operands = [a, b].take i.operands.length

section
variable {a b : Byte} {n : Nat} {i : Instr}

theorem decodeGf2_eq_ok (h : decodeGf2 a b n = .ok i) : i.command.toNat = 0x00 + n ∧ i.ReadsOperands a b := by
  unfold decodeGf2 at h
  split at h <;> cases h <;> exact ⟨rfl, rfl⟩

theorem decodeF3_eq_ok (h : decodeF3 a b n = .ok i) : i.command.toNat = 0x10 + n ∧ i.ReadsOperands a b := by
  unfold decodeF3 at h
  split at h <;> cases h <;> exact ⟨rfl, rfl⟩

theorem decodeP251_eq_ok (h : decodeP251 a b n = .ok i) : i.command.toNat = 0x20 + n ∧ i.ReadsOperands a b := by
  unfold decodeP251 at h
  split at h <;> cases h <;> exact ⟨rfl, rfl⟩

theorem decodeF256_eq_ok (h : decodeF256 a b n = .ok i) : i.command.toNat = 0x30 + n ∧ i.ReadsOperands a b := by
  unfold decodeF256 at h
  split at h <;> cases h <;> exact ⟨rfl, rfl⟩

end

/-- The reserved bits are 0, and the field's own map has the function code: so `cmd` is the operation's byte. -/
theorem command_of_decodeCommand {cmd a b : Byte} {i : Instr} (h : decodeCommand cmd a b = .ok i) :
    i.command = cmd ∧ i.ReadsOperands a b := by
  have hcmd := command_toNat_of_fields cmd
  have hfield := (fieldOf cmd).isLt
  unfold decodeCommand at h
  split at h
  case isTrue => cases h
  case isFalse hrsv =>
    have hclear : (reservedOf cmd).toNat = 0 := congrArg BitVec.toNat (not_not.mp hrsv)
    suffices hi : i.command.toNat = (fieldOf cmd).toNat * 16 + (functionOf cmd).toNat ∧ i.ReadsOperands a b from
      ⟨BitVec.eq_of_toNat_eq (by omega), hi.2⟩
    split at h
    next hfld => rw [hfld]; exact decodeGf2_eq_ok h
    next hfld => rw [hfld]; exact decodeF3_eq_ok h
    next hfld => rw [hfld]; exact decodeP251_eq_ok h
    next hne0 hne1 hne2 =>
      have hfld : (fieldOf cmd).toNat = 3 := by grind
      rw [hfld]
      exact decodeF256_eq_ok h

/-- The operation's own command byte selects it, with the operands it uses read from the request. -/
theorem decodeCommand_command {a b : Byte} {i : Instr} (h : i.ReadsOperands a b) :
    decodeCommand i.command a b = .ok i := by
  cases i <;> cases h <;> dsimp only [Instr.command] <;> rfl

theorem decodeCommand_eq_ok_iff {cmd a b : Byte} {i : Instr} :
    decodeCommand cmd a b = .ok i ↔ i.command = cmd ∧ i.ReadsOperands a b := by
  refine ⟨command_of_decodeCommand, ?_⟩
  rintro ⟨rfl, hops⟩
  exact decodeCommand_command hops

/-! ### Agreement on the used bits -/

theorem Instr.operands_length_le (i : Instr) : i.operands.length ≤ 2 := by
  cases i <;> simp [Instr.operands]

/-- A request agrees with the encoding on the used bits when command byte and used operands are the instruction's. -/
theorem encode_eq_and_usedBits_iff {cmd a b : Byte} {i : Instr} :
    encode i = requestWord cmd a b &&& i.usedBits ↔ i.command = cmd ∧ i.ReadsOperands a b := by
  unfold encode Instr.usedBits Instr.ReadsOperands
  match i.operands, i.operands_length_le with
  | [], _ =>
    show _ = _ &&& requestWord 0xFF 0x00 0x00 ↔ _
    simp [requestWord_and, requestWord_inj, byte_and_0xFF]
  | [x], _ =>
    show _ = _ &&& requestWord 0xFF 0xFF 0x00 ↔ _
    simp [requestWord_and, requestWord_inj, byte_and_0xFF]
  | [x, y], _ =>
    show _ = _ &&& requestWord 0xFF 0xFF 0xFF ↔ _
    simp [requestWord_and, requestWord_inj, byte_and_0xFF]
  | _ :: _ :: _ :: _, hlength => simp at hlength

/-- What decodes to `i` (R64, R65): the words that agree with its encoding on the bits it uses. -/
theorem decode_eq_ok_iff {w : ReqWord} {i : Instr} : decode w = .ok i ↔ encode i = w &&& i.usedBits := by
  rw [← requestWord_fields w, decode_requestWord, decodeCommand_eq_ok_iff, encode_eq_and_usedBits_iff]

theorem Instr.readsOperands_getD (i : Instr) :
    i.ReadsOperands (i.operands.getD 0 0x00) (i.operands.getD 1 0x00) := by
  cases i <;> rfl

end Sys2Proof

namespace Sys2Proof.Machine
open Laws.Layout

/-! ### The command map -/

theorem decodeCommand_of_mem_commandMap {c : Nat} {f : Byte → Byte → Instr} (h : (c, f) ∈ commandMap) (a b : Byte) :
    decodeCommand (BitVec.ofNat 8 c) a b = .ok (f a b) := by
  fin_cases h <;> rfl

theorem decodeCommand_of_lookup {cmd : Byte} {f : Byte → Byte → Instr} (h : commandMap.lookup cmd.toNat = some f)
    (a b : Byte) : decodeCommand cmd a b = .ok (f a b) := by
  obtain ⟨before, after, hmap, -⟩ := List.lookup_eq_some_iff.mp h
  have hmem : (cmd.toNat, f) ∈ commandMap := by simp [hmap]
  simpa using decodeCommand_of_mem_commandMap hmem a b

/-- Every operation has a row. -/
theorem commandMap_lookup_command (i : Instr) : (commandMap.lookup i.command.toNat).isSome := by
  cases i <;> rfl

/-- R63's command bytes are the legal ones of R66's list. -/
theorem commandMap_lookup_isSome :
    ∀ cmd : Byte, (commandMap.lookup cmd.toNat).isSome = requestWellFormed (requestWord cmd 0x00 0x00) := by
  decide +kernel

/-- The decoder is the command map (R65). -/
theorem decodeCommand_toOption (cmd a b : Byte) :
    (decodeCommand cmd a b).toOption = (commandMap.lookup cmd.toNat).map fun f => f a b := by
  cases hrow : commandMap.lookup cmd.toNat with
  | some f => rw [decodeCommand_of_lookup hrow]; rfl
  | none =>
    cases hdecode : decodeCommand cmd a b with
    | error e => rfl
    | ok i =>
      obtain ⟨rfl, -⟩ := decodeCommand_eq_ok_iff.mp hdecode
      simpa [hrow] using commandMap_lookup_command i

/-- A request decodes exactly when R66 calls it legal. -/
theorem decode_isSome_eq_requestWellFormed (w : ReqWord) : (decode w).toOption.isSome = requestWellFormed w := by
  rw [← requestWord_fields w, decode_requestWord, decodeCommand_toOption, Option.isSome_map,
    commandMap_lookup_isSome, ← requestWellFormed_requestWord]

/-! ### The assembler -/

/-- The row the assembler should have for an operation: its mnemonic, its command byte, how many operands it uses. -/
def asmRowOf (i : Instr) : AsmRow := ⟨i.mnemonic, i.command, i.operands.length⟩

/-- The assembler's rows are those of the command map. -/
theorem asmRows_eq_commandMap : asmRows = commandMap.map fun row => asmRowOf (row.2 0x00 0x00) := rfl

theorem asmRows_find_mnemonic (i : Instr) :
    asmRows.find? (fun row => row.mnemonic == i.mnemonic) = some (asmRowOf i) := by
  cases i <;> rfl

theorem assemble_mnemonic (i : Instr) (line : List Byte) :
    assemble i.mnemonic line =
      if i.operands.length ≤ line.length ∧ line.length ≤ 2 then
        some (requestWord i.command (line.getD 0 0x00) (line.getD 1 0x00))
      else none := by
  simp only [assemble, asmRows_find_mnemonic, asmRowOf]

theorem assemble_of_unknown {name : String} (hname : ∀ i : Instr, i.mnemonic ≠ name) (line : List Byte) :
    assemble name line = none := by
  have hfind : asmRows.find? (fun row => row.mnemonic == name) = none := by
    rw [asmRows_eq_commandMap]
    simp [asmRowOf, hname]
  simp only [assemble, hfind]

end Sys2Proof.Machine
end

section
/-!
The obligations of the encoding family (30_encoding.md).
-/
namespace Sys2Proof.Machine

/-- Settles O24: the encoding carries the operation's command byte and, where the decoder reads them, its operands. -/
theorem decodeInvertsEncode : Obligations.DecodeInvertsEncode := fun i =>
  (decode_requestWord _ _ _).trans (decodeCommand_command i.readsOperands_getD)

/-- Settles O22. -/
theorem decodingFollowsTheCommandMap : Obligations.DecodingFollowsTheCommandMap := fun cmd a b =>
  (congrArg Except.toOption (decode_requestWord cmd a b)).trans (decodeCommand_toOption cmd a b)

/-- Settles O23: a request decodes exactly when it is legal; the illegal command bytes are counted. -/
theorem illegalRequestsAnsweredIllegal : Obligations.IllegalRequestsAnsweredIllegal := by
  refine ⟨fun s w rest hin hillegal => ?_, fun w hlegal => ?_, by decide +kernel⟩
  · cases hw : decode w with
    | error e => exact step_undecoded hin hw
    | ok i => simp [← decode_isSome_eq_requestWellFormed, hw, Except.toOption] at hillegal
  · cases hw : decode w with
    | ok i => exact ⟨i, rfl⟩
    | error e => simp [← decode_isSome_eq_requestWellFormed, hw, Except.toOption] at hlegal

/-- Settles O25. -/
theorem encodeInvertsDecodeOnUsedBits : Obligations.EncodeInvertsDecodeOnUsedBits :=
  fun _ _ => decode_eq_ok_iff.mp

/-- Settles O26: a word that agrees on the used bits decodes to the same instruction. -/
theorem unusedOperandBytesAreIgnored : Obligations.UnusedOperandBytesAreIgnored := by
  intro s w w' rest i hin hw hagree
  have hw' : decode w' = .ok i := decode_eq_ok_iff.mpr ((decode_eq_ok_iff.mp hw).trans hagree)
  rw [step_decoded hin hw, step_decoded (s := { s with input := .request w' :: rest }) rfl hw']

/-- Settles O27: a mnemonic's line assembles exactly when it has the operands used and at most two. -/
theorem assemblerWritesTheEncoding : Obligations.AssemblerWritesTheEncoding := by
  refine ⟨fun i => ?_, ?_, fun _ line hname => assemble_of_unknown hname line, fun i line huses htwo => ?_,
    fun i line hwrong => ?_⟩
  · exact (assemble_mnemonic i i.operands).trans (if_pos ⟨le_rfl, i.operands_length_le⟩)
  · exact assemble_mnemonic (.f256Mul 0x53 0xCA) [0x53, 0xCA]
  · exact (assemble_mnemonic i line).trans (if_pos ⟨huses, htwo⟩)
  · exact (assemble_mnemonic i line).trans (if_neg (by omega))

/-- Settles O28. -/
theorem decodedWordsOfEveryFamily : Obligations.DecodedWordsOfEveryFamily :=
  ⟨rfl, rfl, rfl, rfl, rfl, rfl⟩

end Sys2Proof.Machine
end

section
/-!
The multiplier and the printed tables. `PolyMul` is linear over XOR in each operand (R131 facts (3) and (5)), so that a
law of it holds on all bytes once it holds on the eight bytes with one set bit. The printed `EXP` holds the powers of 3
(R153) and the printed `LOG` inverts it (R154), so that a product by logarithms is `PolyMul` (R91).
-/
namespace Sys2Proof.Machine

/-! ### Maps that are linear over XOR -/

/-- The bytes with one set bit: the monomials `1, x, …, x^7` (R10). -/
def singleBits : List Byte := [0x01, 0x02, 0x04, 0x08, 0x10, 0x20, 0x40, 0x80]

/-- A byte is the XOR of its set bits. -/
theorem foldr_xor_setBits :
    ∀ x : Byte, (singleBits.filter fun bit => x &&& bit != 0x00).foldr (· ^^^ ·) 0x00 = x := by
  decide

/-- `f` is linear over GF(2), a byte being a vector of bits. -/
def XorLinear (f : Byte → Byte) : Prop := ∀ x y, f (x ^^^ y) = f x ^^^ f y

theorem XorLinear.map_zero {f : Byte → Byte} (hf : XorLinear f) : f 0x00 = 0x00 := by
  simpa using hf 0x00 0x00

theorem XorLinear.comp {f g : Byte → Byte} (hf : XorLinear f) (hg : XorLinear g) : XorLinear fun x => f (g x) :=
  fun x y => (congrArg f (hg x y)).trans (hf _ _)

theorem xorLinear_id : XorLinear fun x => x := fun _ _ => rfl

theorem polyMul_xorLinear_left (y : Byte) : XorLinear (polyMul · y) := fun x x' => polyMul_xor_left x x' y

theorem polyMul_xorLinear_right (x : Byte) : XorLinear (polyMul x ·) := polyMul_xor_right x

/-- Linear maps that agree on the single bits agree. -/
theorem XorLinear.eq_of_singleBits {f g : Byte → Byte} (hf : XorLinear f) (hg : XorLinear g)
    (h : ∀ bit ∈ singleBits, f bit = g bit) (x : Byte) : f x = g x := by
  rw [← foldr_xor_setBits x]
  refine List.foldrRecOn (motive := fun x => f x = g x) _ _ (hf.map_zero.trans hg.map_zero.symm)
    fun acc hacc bit hbit => ?_
  rw [hf, hg, hacc, h bit (List.mem_of_mem_filter hbit)]

/-! ### The laws of `PolyMul` -/

theorem polyMul_zero (x : Byte) : polyMul x 0x00 = 0x00 := (polyMul_xorLinear_right x).map_zero

theorem zero_polyMul (x : Byte) : polyMul 0x00 x = 0x00 := (polyMul_xorLinear_left x).map_zero

theorem polyMul_one (x : Byte) : polyMul x 0x01 = x :=
  (polyMul_xorLinear_left 0x01).eq_of_singleBits xorLinear_id (by decide) x

/-- Associativity with the generator 3 as the last factor, which says that powers of 3 multiply by adding exponents. -/
theorem polyMul_polyMul_three (x y : Byte) : polyMul (polyMul x y) 0x03 = polyMul x (polyMul y 0x03) := by
  have bits : ∀ i ∈ singleBits, ∀ j ∈ singleBits, polyMul (polyMul i j) 0x03 = polyMul i (polyMul j 0x03) := by
    decide
  have left := polyMul_xorLinear_left
  have right := polyMul_xorLinear_right
  refine ((left 0x03).comp (left y)).eq_of_singleBits (left (polyMul y 0x03)) (fun i hi => ?_) x
  exact ((left 0x03).comp (right i)).eq_of_singleBits ((right i).comp (left 0x03)) (bits i hi) y

/-! ### The powers of 3 -/

/-- `3^k` as the printed `EXP` has it, for every exponent. -/
def powerOfThree (k : Nat) : Byte := expEntry (k % 255)

theorem powerOfThree_zero : powerOfThree 0 = 0x01 := rfl

theorem powerOfThree_congr {j k : Nat} (h : j % 255 = k % 255) : powerOfThree j = powerOfThree k :=
  congrArg expEntry h

theorem expEntry_mod (k : Nat) : expEntry (k % 255) = powerOfThree k := rfl

/-- Each printed entry is 3 times the one before it, the first one 3 times the last (R151, R153). -/
theorem powerOfThree_succ (k : Nat) : powerOfThree (k + 1) = polyMul (powerOfThree k) 0x03 := by
  have entries : ∀ i : Byte, powerOfThree (i.toNat + 1) = polyMul (powerOfThree i.toNat) 0x03 := by decide
  have hk : (BitVec.ofNat 8 (k % 255)).toNat = k % 255 := Nat.mod_eq_of_lt (by omega)
  have hentry := entries (BitVec.ofNat 8 (k % 255))
  rw [hk] at hentry
  rwa [powerOfThree_congr (show (k + 1) % 255 = (k % 255 + 1) % 255 by omega),
    powerOfThree_congr (Nat.mod_mod k 255).symm]

theorem polyMul_powerOfThree (j k : Nat) : polyMul (powerOfThree j) (powerOfThree k) = powerOfThree (j + k) := by
  induction k with
  | zero => rw [powerOfThree_zero, polyMul_one, Nat.add_zero]
  | succ k ih => rw [powerOfThree_succ, ← polyMul_polyMul_three, ih, ← Nat.add_assoc, powerOfThree_succ]

theorem iterate_polyMul_powerOfThree (j k n : Nat) :
    (fun acc => polyMul acc (powerOfThree k))^[n] (powerOfThree j) = powerOfThree (j + n * k) := by
  induction n generalizing j with
  | zero => simp
  | succ n ih => rw [Function.iterate_succ_apply, polyMul_powerOfThree, ih, Nat.add_assoc, Nat.succ_mul, Nat.add_comm k]

/-! ### Logarithms -/

theorem logEntry_le : ∀ a : Byte, (logEntry a).toNat ≤ 254 := by decide

theorem expEntry_logEntry : ∀ a : Byte, a ≠ 0x00 → expEntry (logEntry a).toNat = a := by decide

theorem logEntry_expEntry : ∀ i : Byte, i.toNat ≤ 254 → logEntry (expEntry i.toNat) = i := by decide

/-- No power of 3 is zero: `LOG[0] = 0`, and `EXP[0] = 1`. -/
theorem expEntry_ne_zero {i : Byte} (hi : i.toNat ≤ 254) : expEntry i.toNat ≠ 0x00 := by
  intro hzero
  have hlog := logEntry_expEntry i hi
  rw [hzero] at hlog
  obtain rfl : i = 0x00 := hlog.symm
  exact absurd hzero (by decide)

theorem powerOfThree_logEntry {a : Byte} (ha : a ≠ 0x00) : powerOfThree (logEntry a).toNat = a := by
  have hlog := logEntry_le a
  rw [powerOfThree, Nat.mod_eq_of_lt (by omega), expEntry_logEntry a ha]

/-! ### Commutativity and associativity: a nonzero byte is a power of 3 -/

theorem polyMul_comm (x y : Byte) : polyMul x y = polyMul y x := by
  by_cases hx : x = 0x00
  · rw [hx, zero_polyMul, polyMul_zero]
  by_cases hy : y = 0x00
  · rw [hy, zero_polyMul, polyMul_zero]
  rw [← powerOfThree_logEntry hx, ← powerOfThree_logEntry hy, polyMul_powerOfThree, polyMul_powerOfThree,
    Nat.add_comm]

theorem polyMul_assoc (x y z : Byte) : polyMul (polyMul x y) z = polyMul x (polyMul y z) := by
  by_cases hx : x = 0x00
  · rw [hx, zero_polyMul, zero_polyMul, zero_polyMul]
  by_cases hy : y = 0x00
  · rw [hy, zero_polyMul, polyMul_zero, zero_polyMul]
  by_cases hz : z = 0x00
  · rw [hz, polyMul_zero, polyMul_zero, polyMul_zero]
  rw [← powerOfThree_logEntry hx, ← powerOfThree_logEntry hy, ← powerOfThree_logEntry hz, polyMul_powerOfThree,
    polyMul_powerOfThree, polyMul_powerOfThree, polyMul_powerOfThree, Nat.add_assoc]

/-! ### Products, inverses and powers by logarithms -/

/-- The two multiplications of R91 are one function. -/
theorem printedMul2_eq_polyMul (x y : Byte) : printedMul2 x y = polyMul x y := by
  unfold printedMul2
  split
  case isTrue hzero =>
    rcases hzero with rfl | rfl
    · rw [zero_polyMul]
    · rw [polyMul_zero]
  case isFalse hnonzero =>
    obtain ⟨hx, hy⟩ := not_or.1 hnonzero
    rw [expEntry_mod, ← polyMul_powerOfThree, powerOfThree_logEntry hx, powerOfThree_logEntry hy]

/-- `EXP[(255 - LOG[a]) mod 255]` (R159). -/
def inverseByLog (a : Byte) : Byte := powerOfThree (255 - (logEntry a).toNat)

theorem polyMul_inverseByLog {a : Byte} (ha : a ≠ 0x00) : polyMul a (inverseByLog a) = 0x01 := by
  have hlog := logEntry_le a
  calc polyMul a (inverseByLog a)
    _ = polyMul (powerOfThree (logEntry a).toNat) (inverseByLog a) := by rw [powerOfThree_logEntry ha]
    _ = powerOfThree ((logEntry a).toNat + (255 - (logEntry a).toNat)) := polyMul_powerOfThree _ _
    _ = powerOfThree 0 := powerOfThree_congr (by omega)

/-- A nonzero byte multiplied `n` times by itself. -/
theorem iterate_polyMul_self {a : Byte} (ha : a ≠ 0x00) (n : Nat) :
    (fun acc => polyMul acc a)^[n] a = powerOfThree ((n + 1) * (logEntry a).toNat) := by
  have hpow := iterate_polyMul_powerOfThree (logEntry a).toNat (logEntry a).toNat n
  rw [powerOfThree_logEntry ha] at hpow
  rw [hpow, Nat.succ_mul, Nat.add_comm]

/-- `a^254` is the inverse of a nonzero `a` (R138). -/
theorem iterate_polyMul_253 {a : Byte} (ha : a ≠ 0x00) : (fun acc => polyMul acc a)^[253] a = inverseByLog a := by
  have hlog := logEntry_le a
  rw [iterate_polyMul_self ha]
  exact powerOfThree_congr (by omega)

end Sys2Proof.Machine
end

section
/-!
The field contract (R81). `FieldContract.IsField` says of a field that the machine answers its operations by four
functions on bytes, and that these functions obey the field laws on its domain; each of the four fields is one. The laws
of the contract (R87 to R90, R93) are read off.
-/
namespace Sys2Proof.Machine

/-! ### Executions and their answers -/

theorem checkDomain_of_valid {inDomain : Bool} (h : inDomain = true) (s : State)
    (run : Host.Outcome State Fault Refusal) : checkDomain inDomain s run = run := if_pos h

theorem State.answers_of_exec {s t : State} {i : Instr} {r : Response} (hexec : exec i s = .next t)
    (ht : t.responses = s.responses ++ [r]) : s.answers i = [r] := by
  simp only [State.answers, hexec, ht, List.drop_left]

theorem State.answers_of_answered {s : State} {i : Instr} {r : Response} (hexec : exec i s = .next (s.answered r)) :
    s.answers i = [r] := State.answers_of_exec hexec rfl

theorem State.answers_of_tablesBuilt {s : State} {i : Instr} {r : Response}
    (hexec : exec i s = .next (s.tablesBuilt.answered r)) : s.answers i = [r] := State.answers_of_exec hexec rfl

/-- The search finds the candidate it looks for, if there is just one. -/
theorem searchAscending_of_unique {n : Nat} {p : Byte → Bool} {x : Byte} (hx : x.toNat < n) (hp : p x = true)
    (unique : ∀ y : Byte, y.toNat < n → p y = true → y = x) : searchAscending n p = some x := by
  have hmem : x ∈ (List.range n).map (BitVec.ofNat 8) :=
    List.mem_map.2 ⟨x.toNat, List.mem_range.2 hx, by rw [BitVec.ofNat_toNat, BitVec.setWidth_eq]⟩
  obtain ⟨y, hy⟩ := Option.isSome_iff_exists.1 (List.find?_isSome.2 ⟨x, hmem, hp⟩)
  obtain ⟨i, hi, rfl⟩ := List.mem_map.1 (List.mem_of_find?_eq_some hy)
  have hbound : (BitVec.ofNat 8 i).toNat < n := (Nat.mod_le _ _).trans_lt (List.mem_range.1 hi)
  rw [← unique _ hbound (List.find?_some hy)]
  exact hy

/-! ### The contract -/

/-- The functions on bytes that the operations of a field compute. -/
structure FieldOps where
  add : Byte → Byte → Byte
  mul : Byte → Byte → Byte
  neg : Byte → Byte
  inv : Byte → Byte

/-- The machine answers the operations of `F` by `ops`, in every state, and changes nothing else. -/
structure FieldContract.Computes (F : FieldContract) (ops : FieldOps) : Prop where
  add : ∀ s a b, F.dom a = true → F.dom b = true → exec (F.add a b) s = .next (s.answered ⟨.ok, ops.add a b⟩)
  mul : ∀ s a b, F.dom a = true → F.dom b = true → exec (F.mul a b) s = .next (s.answered ⟨.ok, ops.mul a b⟩)
  neg : ∀ s a, F.dom a = true → exec (F.neg a) s = .next (s.answered ⟨.ok, ops.neg a⟩)
  inv : ∀ s a, F.dom a = true → a ≠ 0x00 → exec (F.inv a) s = .next (s.answered ⟨.ok, ops.inv a⟩)
  inv_zero : ∀ s, exec (F.inv 0x00) s = .next (s.answered ⟨.absent, 0x00⟩)

section
variable {F : FieldContract} {ops : FieldOps} (h : F.Computes ops) (s : State) {a b : Byte}
include h

theorem FieldContract.Computes.answers_add (ha : F.dom a = true) (hb : F.dom b = true) :
    s.answers (F.add a b) = [⟨.ok, ops.add a b⟩] := State.answers_of_answered (h.add s a b ha hb)

theorem FieldContract.Computes.answers_mul (ha : F.dom a = true) (hb : F.dom b = true) :
    s.answers (F.mul a b) = [⟨.ok, ops.mul a b⟩] := State.answers_of_answered (h.mul s a b ha hb)

theorem FieldContract.Computes.answers_neg (ha : F.dom a = true) : s.answers (F.neg a) = [⟨.ok, ops.neg a⟩] :=
  State.answers_of_answered (h.neg s a ha)

theorem FieldContract.Computes.answers_inv (ha : F.dom a = true) (hne : a ≠ 0x00) :
    s.answers (F.inv a) = [⟨.ok, ops.inv a⟩] := State.answers_of_answered (h.inv s a ha hne)

theorem FieldContract.Computes.answers_inv_zero : s.answers (F.inv 0x00) = [⟨.absent, 0x00⟩] :=
  State.answers_of_answered (h.inv_zero s)

end

/-- `ops` keep the domain (R87). -/
structure FieldOps.ClosedOn (ops : FieldOps) (dom : Byte → Bool) : Prop where
  zero : dom 0x00 = true
  one : dom 0x01 = true
  add : ∀ a, dom a = true → ∀ b, dom b = true → dom (ops.add a b) = true
  mul : ∀ a, dom a = true → ∀ b, dom b = true → dom (ops.mul a b) = true
  neg : ∀ a, dom a = true → dom (ops.neg a) = true
  inv : ∀ a, dom a = true → a ≠ 0x00 → dom (ops.inv a) = true

/-- `ops` obey the field laws on the domain (R88 to R90, R93). -/
structure FieldOps.Laws (ops : FieldOps) (dom : Byte → Bool) : Prop where
  add_zero : ∀ a, dom a = true → ops.add a 0x00 = a
  add_neg : ∀ a, dom a = true → ops.add a (ops.neg a) = 0x00
  add_comm : ∀ a, dom a = true → ∀ b, dom b = true → ops.add a b = ops.add b a
  add_assoc : ∀ a, dom a = true → ∀ b, dom b = true → ∀ c, dom c = true →
    ops.add (ops.add a b) c = ops.add a (ops.add b c)
  mul_zero : ∀ a, dom a = true → ops.mul a 0x00 = 0x00
  mul_one : ∀ a, dom a = true → ops.mul a 0x01 = a
  mul_inv : ∀ a, dom a = true → a ≠ 0x00 → ops.mul a (ops.inv a) = 0x01
  mul_comm : ∀ a, dom a = true → ∀ b, dom b = true → ops.mul a b = ops.mul b a
  mul_assoc : ∀ a, dom a = true → ∀ b, dom b = true → ∀ c, dom c = true →
    ops.mul (ops.mul a b) c = ops.mul a (ops.mul b c)
  mul_add : ∀ a, dom a = true → ∀ b, dom b = true → ∀ c, dom c = true →
    ops.mul a (ops.add b c) = ops.add (ops.mul a b) (ops.mul a c)

/-- The machine computes `F` by functions that keep its domain and obey the field laws there. -/
structure FieldContract.IsField (F : FieldContract) (ops : FieldOps) : Prop where
  computes : F.Computes ops
  closed : ops.ClosedOn F.dom
  laws : ops.Laws F.dom

/-- An element has at most one inverse. -/
theorem FieldOps.Laws.inv_unique {ops : FieldOps} {dom : Byte → Bool} (laws : ops.Laws dom) (hone : dom 0x01 = true)
    {a x y : Byte} (ha : dom a = true) (hx : dom x = true) (hy : dom y = true) (hax : ops.mul a x = 0x01)
    (hay : ops.mul a y = 0x01) : x = y :=
  calc x = ops.mul x (ops.mul a y) := by rw [hay, laws.mul_one x hx]
    _ = ops.mul (ops.mul a x) y := by rw [← laws.mul_assoc x hx a ha y hy, laws.mul_comm x hx a ha]
    _ = y := by rw [hax, laws.mul_comm _ hone y hy, laws.mul_one y hy]

/-- The brute-force search for an inverse finds it (R126, R137). -/
theorem FieldOps.Laws.search_inv {ops : FieldOps} {dom : Byte → Bool} (laws : ops.Laws dom)
    (closed : ops.ClosedOn dom) {n : Nat} (hdom : ∀ x, dom x = true ↔ x.toNat < n) {a : Byte} (ha : dom a = true)
    (hne : a ≠ 0x00) : searchAscending n (fun x => ops.mul a x == 0x01) = some (ops.inv a) := by
  have hinv := closed.inv a ha hne
  have hmul := laws.mul_inv a ha hne
  refine searchAscending_of_unique ((hdom _).1 hinv) (beq_iff_eq.2 hmul) fun y hy hp => ?_
  exact laws.inv_unique closed.one ha ((hdom y).2 hy) hinv (beq_iff_eq.1 hp) hmul

/-! ### GF(2) -/

def gf2Ops : FieldOps where
  add a b := a ^^^ b
  mul a b := a &&& b
  neg a := a
  inv _ := 0x01

theorem gf2Valid_eq_dom (a : Byte) : gf2Valid a = gf2Field.dom a := rfl

theorem gf2_dom_iff : ∀ a : Byte, gf2Field.dom a = true ↔ a ∈ [0x00, 0x01] := by decide

/-- With two elements, each law is a finite check. -/
theorem gf2_isField : gf2Field.IsField gf2Ops where
  computes :=
    { add s a b ha hb := checkDomain_of_valid (by simp only [gf2Valid_eq_dom, ha, hb, Bool.and_self]) s _
      mul s a b ha hb := checkDomain_of_valid (by simp only [gf2Valid_eq_dom, ha, hb, Bool.and_self]) s _
      neg s a ha := checkDomain_of_valid (gf2Valid_eq_dom a ▸ ha) s _
      inv s a ha hne := (checkDomain_of_valid (gf2Valid_eq_dom a ▸ ha) s _).trans (if_neg hne)
      inv_zero _ := rfl }
  closed := by constructor <;> simp only [gf2_dom_iff] <;> decide
  laws := by constructor <;> simp only [gf2_dom_iff] <;> decide

/-! ### F3 -/

def f3Ops : FieldOps where
  add := f3Sum
  mul := f3Product
  neg a := if a = 0x00 then 0x00 else if a = 0x01 then 0xFF else 0x01
  inv a := a

theorem f3Valid_eq_dom : ∀ a : Byte, f3Valid a = f3Field.dom a := by decide

theorem f3_dom_iff : ∀ a : Byte, f3Field.dom a = true ↔ a ∈ [0x00, 0x01, 0xFF] := by decide

/-- With three elements, each law is a finite check. -/
theorem f3_isField : f3Field.IsField f3Ops where
  computes :=
    { add s a b ha hb := checkDomain_of_valid (by simp only [f3Valid_eq_dom, ha, hb, Bool.and_self]) s _
      mul s a b ha hb := checkDomain_of_valid (by simp only [f3Valid_eq_dom, ha, hb, Bool.and_self]) s _
      neg s a ha := checkDomain_of_valid (f3Valid_eq_dom a ▸ ha) s _
      inv s a ha hne := (checkDomain_of_valid (f3Valid_eq_dom a ▸ ha) s _).trans (if_neg hne)
      inv_zero _ := rfl }
  closed := by constructor <;> simp only [f3_dom_iff] <;> decide
  laws := by constructor <;> simp only [f3_dom_iff] <;> decide

/-! ### 16-bit intermediates -/

@[simp] theorem toNat_zext16 (x : Byte) : (zext16 x).toNat = x.toNat := by
  have := x.isLt
  simp only [zext16, BitVec.truncate_eq_setWidth, BitVec.toNat_setWidth]
  omega

/-- The product of two bytes does not wrap in 16 bits. -/
theorem toNat_zext16_mul (x y : Byte) : (zext16 x * zext16 y).toNat = x.toNat * y.toNat := by
  have hle : x.toNat * y.toNat ≤ 255 * 255 := Nat.mul_le_mul (by omega) (by omega)
  rw [BitVec.toNat_mul, toNat_zext16, toNat_zext16, Nat.mod_eq_of_lt (by omega)]

/-- `251 - x` does not wrap in 16 bits for an `x` of the domain. -/
theorem toNat_251_sub_zext16 {x : Byte} (hx : x.toNat ≤ 250) : (251 - zext16 x).toNat = 251 - x.toNat := by
  have hzext := toNat_zext16 x
  bv_omega

@[simp] theorem toNat_mod251 (v : BitVec 16) : (mod251 v).toNat = v.toNat % 251 := by
  have hmod : (v % 251).toNat = v.toNat % 251 := BitVec.toNat_umod
  rw [mod251, BitVec.truncate_eq_setWidth, BitVec.toNat_setWidth, hmod]
  omega

/-! ### GF(251) -/

/-- The residue class a byte stands for. -/
def p251Residue (a : Byte) : ZMod 251 := a.toNat

theorem p251Residue_of_mod {r : Byte} {n : Nat} (h : r.toNat = n % 251) : p251Residue r = n := by
  rw [p251Residue, h, ZMod.natCast_mod]

theorem p251_dom_iff (a : Byte) : p251Field.dom a = true ↔ a.toNat ≤ 250 := decide_eq_true_iff

theorem p251Residue_inj {a b : Byte} (ha : p251Field.dom a = true) (hb : p251Field.dom b = true)
    (h : p251Residue a = p251Residue b) : a = b := by
  rw [p251_dom_iff] at ha hb
  rw [p251Residue, p251Residue, ZMod.natCast_eq_natCast_iff'] at h
  exact BitVec.eq_of_toNat_eq (by omega)

def p251Ops : FieldOps where
  add a b := mod251 (zext16 a + zext16 b)
  mul a b := mod251 (zext16 a * zext16 b)
  neg a := mod251 (251 - zext16 a)
  inv a := BitVec.ofNat 8 (p251Residue a)⁻¹.val

theorem p251Residue_add (a b : Byte) : p251Residue (p251Ops.add a b) = p251Residue a + p251Residue b := by
  have h := p251Residue_of_mod (toNat_mod251 (zext16 a + zext16 b))
  rwa [toNat_zext16_add, Nat.cast_add] at h

theorem p251Residue_mul (a b : Byte) : p251Residue (p251Ops.mul a b) = p251Residue a * p251Residue b := by
  have h := p251Residue_of_mod (toNat_mod251 (zext16 a * zext16 b))
  rwa [toNat_zext16_mul, Nat.cast_mul] at h

theorem p251Residue_neg {a : Byte} (ha : p251Field.dom a = true) : p251Residue (p251Ops.neg a) = -p251Residue a := by
  rw [p251_dom_iff] at ha
  have h := p251Residue_of_mod (toNat_mod251 (251 - zext16 a))
  rw [toNat_251_sub_zext16 ha, Nat.cast_sub (by omega), ZMod.natCast_self, zero_sub] at h
  exact h

theorem toNat_p251Ops_inv (a : Byte) : (p251Ops.inv a).toNat = (p251Residue a)⁻¹.val := by
  have := ZMod.val_lt (p251Residue a)⁻¹
  exact Nat.mod_eq_of_lt (by omega)

theorem p251Residue_inv (a : Byte) : p251Residue (p251Ops.inv a) = (p251Residue a)⁻¹ := by
  rw [p251Residue, toNat_p251Ops_inv, ZMod.natCast_zmod_val]

theorem mod251_dom (v : BitVec 16) : p251Field.dom (mod251 v) = true := by
  rw [p251_dom_iff, toNat_mod251]
  omega

theorem p251_closed : p251Ops.ClosedOn p251Field.dom where
  zero := rfl
  one := rfl
  add _ _ _ _ := mod251_dom _
  mul _ _ _ _ := mod251_dom _
  neg _ _ := mod251_dom _
  inv a _ _ := by
    have := ZMod.val_lt (p251Residue a)⁻¹
    rw [p251_dom_iff, toNat_p251Ops_inv]
    omega

/-- Each law holds of the residues. -/
theorem p251_laws : p251Ops.Laws p251Field.dom where
  add_zero a ha := p251Residue_inj (mod251_dom _) ha (by rw [p251Residue_add]; exact add_zero _)
  add_neg a ha := p251Residue_inj (mod251_dom _) rfl (by
    rw [p251Residue_add, p251Residue_neg ha]; exact add_neg_cancel _)
  add_comm a _ b _ := p251Residue_inj (mod251_dom _) (mod251_dom _) (by simp only [p251Residue_add, add_comm])
  add_assoc a _ b _ c _ := p251Residue_inj (mod251_dom _) (mod251_dom _) (by simp only [p251Residue_add, add_assoc])
  mul_zero a _ := p251Residue_inj (mod251_dom _) rfl (by rw [p251Residue_mul]; exact mul_zero _)
  mul_one a ha := p251Residue_inj (mod251_dom _) ha (by rw [p251Residue_mul]; exact mul_one _)
  mul_inv a ha hne := by
    have : Fact (Nat.Prime 251) := ⟨by norm_num⟩
    have hres : p251Residue a ≠ 0 := fun h => hne (p251Residue_inj ha rfl h)
    refine p251Residue_inj (mod251_dom _) rfl ?_
    rw [p251Residue_mul, p251Residue_inv, mul_inv_cancel₀ hres]
    rfl
  mul_comm a _ b _ := p251Residue_inj (mod251_dom _) (mod251_dom _) (by simp only [p251Residue_mul, mul_comm])
  mul_assoc a _ b _ c _ := p251Residue_inj (mod251_dom _) (mod251_dom _) (by simp only [p251Residue_mul, mul_assoc])
  mul_add a _ b _ c _ := p251Residue_inj (mod251_dom _) (mod251_dom _) (by
    simp only [p251Residue_mul, p251Residue_add, mul_add])

/-- Under either policy an operand of the domain stands as it is (R121). -/
theorem withP251Operand_of_dom {a : Byte} (ha : p251Field.dom a = true) (s : State)
    (run : Byte → Host.Outcome State Fault Refusal) : withP251Operand a s run = run a := by
  have hle : a ≤ 250 := BitVec.le_def.2 ((p251_dom_iff a).1 ha)
  simp only [withP251Operand, p251Operand, if_pos hle]

theorem p251_isField : p251Field.IsField p251Ops where
  computes :=
    { add _ _ _ _ _ := rfl
      mul _ _ _ _ _ := rfl
      neg s a ha := withP251Operand_of_dom ha s _
      inv s a ha hne := by
        have hsearch := p251_laws.search_inv (n := 251) p251_closed (fun x => by rw [p251_dom_iff]; omega) ha hne
        refine (withP251Operand_of_dom ha s _).trans ((if_neg hne).trans ?_)
        exact congrArg (finishSearch · s) hsearch
      inv_zero _ := rfl }
  closed := p251_closed
  laws := p251_laws

/-! ### GF(2^8) -/

def f256Ops : FieldOps where
  add a b := a ^^^ b
  mul := polyMul
  neg a := a
  inv := inverseByLog

theorem f256_closed : f256Ops.ClosedOn f256Field.dom := by constructor <;> intros <;> rfl

theorem f256_laws : f256Ops.Laws f256Field.dom where
  add_zero _ _ := BitVec.xor_zero
  add_neg _ _ := BitVec.xor_self
  add_comm a _ b _ := BitVec.xor_comm a b
  add_assoc a _ b _ c _ := BitVec.xor_assoc a b c
  mul_zero a _ := polyMul_zero a
  mul_one a _ := polyMul_one a
  mul_inv _ _ hne := polyMul_inverseByLog hne
  mul_comm a _ b _ := polyMul_comm a b
  mul_assoc a _ b _ c _ := polyMul_assoc a b c
  mul_add a _ b _ c _ := polyMul_xor_right a b c

theorem f256_isField : f256Field.IsField f256Ops where
  computes :=
    { add _ _ _ _ _ := rfl
      mul _ _ _ _ _ := rfl
      neg _ _ _ := rfl
      inv s a ha hne := by
        have hsearch := f256_laws.search_inv (n := 256) f256_closed (fun x => iff_of_true rfl x.isLt) ha hne
        exact (if_neg hne).trans (congrArg (finishSearch · s) hsearch)
      inv_zero _ := rfl }
  closed := f256_closed
  laws := f256_laws

theorem isField_of_mem {F : FieldContract} (hF : F ∈ allFields) : ∃ ops, F.IsField ops := by
  fin_cases hF
  · exact ⟨_, gf2_isField⟩
  · exact ⟨_, f3_isField⟩
  · exact ⟨_, p251_isField⟩
  · exact ⟨_, f256_isField⟩

end Sys2Proof.Machine
end

section
/-!
What the F256 operations that read tables answer in a state that meets the invariant, and what F256.INV2F answers in
every state: inverses and powers are powers of 3.
-/
namespace Sys2Proof.Machine

/-! ### Executions that read the tables -/

section
variable {s : State}

theorem exec_f256Log (hs : s.Inv) {a : Byte} (ha : a ≠ 0x00) :
    exec (.f256Log a) s = .next (s.tablesBuilt.answered ⟨.ok, logEntry a⟩) :=
  (checkDomain_of_valid (bne_iff_ne.2 ha) s _).trans (congrArg finish (lookupLog_of_inv hs ha))

theorem exec_f256Exp (hs : s.Inv) {i : Byte} (hi : i.toNat ≤ 254) :
    exec (.f256Exp i) s = .next (s.tablesBuilt.answered ⟨.ok, expEntry i.toNat⟩) :=
  (checkDomain_of_valid (decide_eq_true (BitVec.le_def.2 hi)) s _).trans
    (congrArg finish (lookupExp_of_inv hs hi))

theorem exec_f256Mul2 (hs : s.Inv) {a b : Byte} (ha : a ≠ 0x00) (hb : b ≠ 0x00) :
    exec (.f256Mul2 a b) s = .next (s.tablesBuilt.answered ⟨.ok, printedMul2 a b⟩) :=
  congrArg finish (mul2_of_ensuresPrinted hs.ensuresPrinted ha hb)

theorem exec_f256Mul2_zero {a b : Byte} (h : a = 0x00 ∨ b = 0x00) (s : State) :
    exec (.f256Mul2 a b) s = .next (s.answered ⟨.ok, 0x00⟩) :=
  congrArg finish (mul2_zero s h)

/-- `255 - LOG[a]` does not wrap in 16 bits. -/
theorem toNat_255_sub_zext16 (x : Byte) : (255 - zext16 x).toNat = 255 - x.toNat := by
  have hzext := toNat_zext16 x
  bv_omega

theorem exec_f256Inv2 (hs : s.Inv) {a : Byte} (ha : a ≠ 0x00) :
    exec (.f256Inv2 a) s = .next (s.tablesBuilt.answered ⟨.ok, inverseByLog a⟩) := by
  have hlookup := lookupThroughLog_of_inv hs (fun l => 255 - l) ha
  rw [toNat_255_sub_zext16, expEntry_mod] at hlookup
  exact (if_neg ha).trans (congrArg finish hlookup)

theorem exec_f256Pow (hs : s.Inv) {a e : Byte} (ha : a ≠ 0x00) (he : e ≠ 0x00) :
    exec (.f256Pow a e) s =
      .next (s.tablesBuilt.answered ⟨.ok, powerOfThree (e.toNat * (logEntry a).toNat)⟩) := by
  have hlookup := lookupThroughLog_of_inv hs (fun l => zext16 e * l) ha
  rw [toNat_zext16_mul, expEntry_mod] at hlookup
  exact (if_neg he).trans ((if_neg ha).trans (congrArg finish hlookup))

theorem exec_f256Pow2_zero {e : Byte} (he : e ≠ 0x00) (s : State) :
    exec (.f256Pow2 0x00 e) s = .next (s.answered ⟨.ok, 0x00⟩) :=
  (if_neg he).trans (congrArg finish (repeatMul2_zero _ s))

theorem exec_f256Pow2 (hs : s.Inv) {a e : Byte} (ha : a ≠ 0x00) (he : 2 ≤ e.toNat) :
    exec (.f256Pow2 a e) s =
      .next (s.tablesBuilt.answered ⟨.ok, (fun acc => printedMul2 acc a)^[e.toNat - 1] a⟩) := by
  have hne : e ≠ 0x00 := by rintro rfl; simp at he
  exact (if_neg hne).trans (congrArg finish (repeatMul2_of_ensuresPrinted hs.ensuresPrinted ha (by omega)))

theorem answers_f256Pow2 (hs : s.Inv) {a e : Byte} (ha : a ≠ 0x00) (he : e ≠ 0x00) :
    s.answers (.f256Pow2 a e) = [⟨.ok, powerOfThree (e.toNat * (logEntry a).toNat)⟩] := by
  by_cases hone : e = 0x01
  · subst hone
    have hpow : powerOfThree ((0x01 : Byte).toNat * (logEntry a).toNat) = a := by
      simpa using powerOfThree_logEntry ha
    rw [hpow]
    exact State.answers_of_answered rfl
  · have htwo : 2 ≤ e.toNat := by bv_omega
    have hpow := iterate_polyMul_self ha (e.toNat - 1)
    rw [Nat.sub_add_cancel (by omega)] at hpow
    rw [State.answers_of_tablesBuilt (exec_f256Pow2 hs ha htwo)]
    simp only [printedMul2_eq_polyMul, hpow]

end

theorem repeatTimes_eq_iterate (n : Nat) (f : Byte → Byte) (acc : Byte) : repeatTimes n f acc = f^[n] acc := by
  induction n generalizing acc with
  | zero => rfl
  | succ n ih => exact ih (f acc)

theorem exec_f256Inv2f {a : Byte} (ha : a ≠ 0x00) (s : State) :
    exec (.f256Inv2f a) s = .next (s.answered ⟨.ok, inverseByLog a⟩) := by
  have hpow : repeatTimes 253 (fun acc => polyMul acc a) a = inverseByLog a :=
    (repeatTimes_eq_iterate _ _ _).trans (iterate_polyMul_253 ha)
  refine (if_neg ha).trans ?_
  rw [hpow, State.respondOk_eq]

end Sys2Proof.Machine
end

section
/-!
The obligations of the contract family (40_contracts.md). O47 to O51 are the field laws, for the functions by which each
field's operations are answered (`isField_of_mem`).
-/
namespace Sys2Proof.Machine

/-- Settles O47: the functions keep the domain; a result modulo 251 is in 0..250 whatever the operands. -/
theorem additionAndMultiplicationAreClosed : Obligations.AdditionAndMultiplicationAreClosed := by
  constructor
  · intro F hF s a b ha hb
    obtain ⟨ops, computes, closed, -⟩ := isField_of_mem hF
    exact ⟨ops.add a b, ops.mul a b, closed.add a ha b hb, closed.mul a ha b hb, computes.answers_add s ha hb,
      computes.answers_mul s ha hb⟩
  · intro s a b
    exact ⟨p251Ops.add a b, p251Ops.mul a b, (p251_dom_iff _).1 (mod251_dom _), (p251_dom_iff _).1 (mod251_dom _),
      State.answers_of_answered rfl, State.answers_of_answered rfl⟩

/-- Settles O48, by `add_zero` and `add_neg` of the field. -/
theorem additiveIdentityAndInverse : Obligations.AdditiveIdentityAndInverse := by
  intro F hF s a ha
  obtain ⟨ops, computes, closed, laws⟩ := isField_of_mem hF
  have hneg := closed.neg a ha
  refine ⟨?_, ops.neg a, hneg, computes.answers_neg s ha, ?_⟩
  · rw [computes.answers_add s ha closed.zero, laws.add_zero a ha]
  · rw [computes.answers_add s ha hneg, laws.add_neg a ha]

/-- Settles O49, by `mul_one` and `mul_zero` of the field. -/
theorem multiplicativeIdentityAndZero : Obligations.MultiplicativeIdentityAndZero := by
  intro F hF s a ha
  obtain ⟨ops, computes, closed, laws⟩ := isField_of_mem hF
  constructor
  · rw [computes.answers_mul s ha closed.one, laws.mul_one a ha]
  · rw [computes.answers_mul s ha closed.zero, laws.mul_zero a ha]

/-- Settles O50, by `mul_inv` of the field. -/
theorem inverseIsCorrectOnEveryField : Obligations.InverseIsCorrectOnEveryField := by
  intro F hF s
  obtain ⟨ops, computes, closed, laws⟩ := isField_of_mem hF
  refine ⟨computes.answers_inv_zero s, fun a ha hne => ?_⟩
  have hinv := closed.inv a ha hne
  refine ⟨ops.inv a, hinv, computes.answers_inv s ha hne, ?_⟩
  rw [computes.answers_mul s ha hinv, laws.mul_inv a ha hne]

/-- Settles O51, by the five laws of the field; closure makes every intermediate an operand. -/
theorem commutativeAssociativeDistributive : Obligations.CommutativeAssociativeDistributive := by
  intro F hF s a b c ha hb hc
  obtain ⟨ops, computes, closed, laws⟩ := isField_of_mem hF
  have add {x y : Byte} := computes.answers_add s (a := x) (b := y)
  have mul {x y : Byte} := computes.answers_mul s (a := x) (b := y)
  have hsab := closed.add a ha b hb
  have hsbc := closed.add b hb c hc
  have hpab := closed.mul a ha b hb
  have hpbc := closed.mul b hb c hc
  have hpac := closed.mul a ha c hc
  refine ⟨?_, ?_, ⟨_, _, _, add ha hb, add hb hc, add hsab hc, ?_⟩,
    ⟨_, _, _, mul ha hb, mul hb hc, mul hpab hc, ?_⟩,
    ⟨_, _, _, _, add hb hc, mul ha hb, mul ha hc, mul ha hsbc, ?_⟩⟩
  · rw [add ha hb, add hb ha, laws.add_comm a ha b hb]
  · rw [mul ha hb, mul hb ha, laws.mul_comm a ha b hb]
  · rw [add ha hsbc, laws.add_assoc a ha b hb c hc]
  · rw [mul ha hpbc, laws.mul_assoc a ha b hb c hc]
  · rw [add hpab hpac, laws.mul_add a ha b hb c hc]

/-- Settles O52: the inversions answer `3^(255 - LOG[a])`, the powers `3^(e * LOG[a])`, the multiplications
`PolyMul`. -/
theorem pairedAlgorithmsAgree : Obligations.PairedAlgorithmsAgree := by
  intro s hs
  refine ⟨fun a => ?inversions, fun a e => ?powers, fun a b => ?multiplications⟩
  case inversions =>
    by_cases ha : a = 0x00
    · subst ha
      exact ⟨⟨.absent, 0x00⟩, State.answers_of_answered rfl, State.answers_of_answered rfl,
        State.answers_of_answered rfl, fun _ => rfl⟩
    · exact ⟨⟨.ok, inverseByLog a⟩, f256_isField.computes.answers_inv s rfl ha,
        State.answers_of_tablesBuilt (exec_f256Inv2 hs ha), State.answers_of_answered (exec_f256Inv2f ha s),
        fun hzero => absurd hzero ha⟩
  case powers =>
    by_cases he : e = 0x00
    · subst he
      exact ⟨0x01, State.answers_of_answered rfl, State.answers_of_answered rfl⟩
    · by_cases ha : a = 0x00
      · subst ha
        exact ⟨0x00, State.answers_of_answered (if_neg he), State.answers_of_answered (exec_f256Pow2_zero he s)⟩
      · exact ⟨_, State.answers_of_tablesBuilt (exec_f256Pow hs ha he), answers_f256Pow2 hs ha he⟩
  case multiplications =>
    refine ⟨polyMul a b, f256_isField.computes.answers_mul s rfl rfl, ?_⟩
    rw [← printedMul2_eq_polyMul]
    by_cases hzero : a = 0x00 ∨ b = 0x00
    · rw [printedMul2, if_pos hzero]
      exact State.answers_of_answered (exec_f256Mul2_zero hzero s)
    · obtain ⟨ha, hb⟩ := not_or.1 hzero
      exact State.answers_of_tablesBuilt (exec_f256Mul2 hs ha hb)

/-- Settles O53: the printed tables invert each other. -/
theorem logAndExpInvertEachOther : Obligations.LogAndExpInvertEachOther := by
  intro s hs
  have log {a : Byte} (ha : a ≠ 0x00) := State.answers_of_tablesBuilt (exec_f256Log hs ha)
  have exp {i : Byte} (hi : i.toNat ≤ 254) := State.answers_of_tablesBuilt (exec_f256Exp hs hi)
  refine ⟨fun a ha => ⟨_, log ha, ?_⟩, fun i hi => ⟨_, exp hi, ?_⟩, log (by decide)⟩
  · rw [exp (logEntry_le a), expEntry_logEntry a ha]
  · rw [log (expEntry_ne_zero hi), logEntry_expEntry i hi]

end Sys2Proof.Machine
end

section
/-!
The obligations of the GF(2) family (41_gf2.md). The results in the domain are those of `gf2_isField`; what is added
is how a request selects its operation, ISZ, and the answer outside the domain.
-/
namespace Sys2Proof.Machine

/-! ### Requests and the domain check -/

/-- A request with the operation's command byte selects it, with the operands it uses read from the request (R65). -/
theorem decode_append_of_command {i : Instr} {cmd a b : Byte} (hcmd : i.command = cmd) (hops : i.ReadsOperands a b) :
    decode (cmd ++ a ++ b) = .ok i :=
  (decode_requestWord cmd a b).trans (decodeCommand_eq_ok_iff.mpr ⟨hcmd, hops⟩)

/-- An operand outside the domain is answered DOMAIN, whatever the operation would do (R80 step 2, R183). -/
theorem checkDomain_of_invalid {inDomain : Bool} (h : inDomain = false) (s : State)
    (run : Host.Outcome State Fault Refusal) :
    checkDomain inDomain s run = .next (s.answered ⟨.domain, 0x00⟩) :=
  if_neg (Bool.eq_false_iff.mp h)

/-! ### GF(2) -/

theorem gf2Valid_of_le {a : Byte} (h : a.toNat ≤ 1) : gf2Valid a = true := decide_eq_true h

theorem gf2Valid_of_lt {a : Byte} (h : 1 < a.toNat) : gf2Valid a = false := decide_eq_false (Nat.not_le.mpr h)

theorem exec_gf2Isz {a : Byte} (h : gf2Valid a = true) (s : State) :
    exec (.gf2Isz a) s = .next (s.answered ⟨.ok, a ^^^ 0x01⟩) := checkDomain_of_valid h s _

/-- Settles O1: 0 and 1 are the domain, where NEG and INV are those of the field; every other byte fails the check. -/
theorem gf2UnaryOperations : Obligations.Gf2UnaryOperations := by
  intro s a b
  refine ⟨⟨decode_append_of_command rfl rfl, decode_append_of_command rfl rfl, decode_append_of_command rfl rfl⟩,
    ?zero, ?one, ?outside⟩
  case zero =>
    rintro rfl
    exact ⟨exec_gf2Isz rfl s, gf2_isField.computes.neg s _ rfl, gf2_isField.computes.inv_zero s⟩
  case one =>
    rintro rfl
    exact ⟨exec_gf2Isz rfl s, gf2_isField.computes.neg s _ rfl, gf2_isField.computes.inv s _ rfl (by decide)⟩
  case outside =>
    intro ha
    have hdom := gf2Valid_of_lt ha
    exact ⟨checkDomain_of_invalid hdom s _, checkDomain_of_invalid hdom s _, checkDomain_of_invalid hdom s _⟩

/-- Settles O2: in the domain ADD and MUL are those of the field; one operand outside fails the check. -/
theorem gf2BinaryOperations : Obligations.Gf2BinaryOperations := by
  intro s a b
  refine ⟨⟨decode_append_of_command rfl rfl, decode_append_of_command rfl rfl⟩, fun ha hb => ?inside,
    fun hout => ?outside⟩
  case inside =>
    have ha' := gf2Valid_of_le ha
    have hb' := gf2Valid_of_le hb
    exact ⟨gf2_isField.computes.add s a b ha' hb', gf2_isField.computes.mul s a b ha' hb'⟩
  case outside =>
    have hdom : (gf2Valid a && gf2Valid b) = false :=
      Bool.and_eq_false_iff.mpr (hout.imp gf2Valid_of_lt gf2Valid_of_lt)
    exact ⟨checkDomain_of_invalid hdom s _, checkDomain_of_invalid hdom s _⟩

end Sys2Proof.Machine
end

section
/-!
The obligations of the F3 family (42_f3.md). The results in the domain are those of `f3_isField`; what is added is ISZ,
the answer outside the domain, and the reading of the byte-level sum and product as arithmetic modulo 3.
-/
namespace Sys2Proof.Machine

theorem f3Valid_of_between {a : Byte} (hlo : 1 < a.toNat) (hhi : a.toNat < 255) : f3Valid a = false := by
  refine Bool.eq_false_iff.mpr fun hvalid => ?_
  rw [f3Valid_eq_dom, f3_dom_iff] at hvalid
  fin_cases hvalid <;> simp at hlo hhi

theorem exec_f3Isz {a : Byte} (h : f3Valid a = true) (s : State) :
    exec (.f3Isz a) s = .next (s.answered ⟨.ok, boolByte (a == 0x00)⟩) := checkDomain_of_valid h s _

/-- Settles O3: 0, 1 and 0xFF are the domain, where NEG and INV are those of the field; every byte between 1 and 0xFF
fails the check. -/
theorem f3UnaryOperations : Obligations.F3UnaryOperations := by
  intro s a b
  refine ⟨⟨decode_append_of_command rfl rfl, decode_append_of_command rfl rfl, decode_append_of_command rfl rfl⟩,
    ?zero, ?one, ?minusOne, ?outside⟩
  case zero =>
    rintro rfl
    exact ⟨exec_f3Isz rfl s, f3_isField.computes.neg s _ rfl, f3_isField.computes.inv_zero s⟩
  case one =>
    rintro rfl
    exact ⟨exec_f3Isz rfl s, f3_isField.computes.neg s _ rfl, f3_isField.computes.inv s _ rfl (by decide)⟩
  case minusOne =>
    rintro rfl
    exact ⟨exec_f3Isz rfl s, f3_isField.computes.neg s _ rfl, f3_isField.computes.inv s _ rfl (by decide)⟩
  case outside =>
    intro hlo hhi
    have hdom := f3Valid_of_between hlo hhi
    exact ⟨checkDomain_of_invalid hdom s _, checkDomain_of_invalid hdom s _, checkDomain_of_invalid hdom s _⟩

/-- The case analysis of R112 is the sum modulo 3. -/
theorem f3Sum_eq_enc {a b : Byte} (ha : f3Field.dom a = true) (hb : f3Field.dom b = true) :
    f3Sum a b = f3Enc ((f3Val a + f3Val b) % 3) := by
  rw [f3_dom_iff] at ha hb
  fin_cases ha <;> fin_cases hb <;> rfl

/-- The case analysis of R113 is the product modulo 3. -/
theorem f3Product_eq_enc {a b : Byte} (ha : f3Field.dom a = true) (hb : f3Field.dom b = true) :
    f3Product a b = f3Enc (f3Val a * f3Val b % 3) := by
  rw [f3_dom_iff] at ha hb
  fin_cases ha <;> fin_cases hb <;> rfl

/-- Settles O4: in the domain ADD and MUL are those of the field, which are the sum and the product modulo 3; one
operand outside fails the check. -/
theorem f3BinaryOperations : Obligations.F3BinaryOperations := by
  intro s a b
  refine ⟨⟨decode_append_of_command rfl rfl, decode_append_of_command rfl rfl⟩, fun ha hb => ?inside,
    fun hout => ?outside⟩
  case inside =>
    rw [← f3Sum_eq_enc ha hb, ← f3Product_eq_enc ha hb]
    exact ⟨f3_isField.computes.add s a b ha hb, f3_isField.computes.mul s a b ha hb⟩
  case outside =>
    have hdom : (f3Valid a && f3Valid b) = false := by
      rw [f3Valid_eq_dom, f3Valid_eq_dom]
      exact Bool.and_eq_false_iff.mpr hout
    exact ⟨checkDomain_of_invalid hdom s _, checkDomain_of_invalid hdom s _⟩

end Sys2Proof.Machine
end

section
/-!
The obligations of the GF(251) family (43_gf251.md). Every operand that `OOR(a)` accepts is executed as its residue
(R121), and a residue is an operand of `p251_isField`; what is added is ISZ, the answer to a refused operand, and the
reading of the byte-level results as arithmetic modulo 251.
-/
namespace Sys2Proof.Machine

/-! ### Results modulo 251 -/

theorem mod251_eq_ofNat (v : BitVec 16) : mod251 v = BitVec.ofNat 8 (v.toNat % 251) := by
  rw [← toNat_mod251, BitVec.ofNat_toNat, BitVec.setWidth_eq]

theorem p251Ops_add_eq (a b : Byte) : p251Ops.add a b = BitVec.ofNat 8 ((a.toNat + b.toNat) % 251) := by
  rw [← toNat_zext16_add]
  exact mod251_eq_ofNat _

theorem p251Ops_mul_eq (a b : Byte) : p251Ops.mul a b = BitVec.ofNat 8 (a.toNat * b.toNat % 251) := by
  rw [← toNat_zext16_mul]
  exact mod251_eq_ofNat _

theorem p251Ops_neg_eq {a : Byte} (ha : a.toNat ≤ 250) :
    p251Ops.neg a = BitVec.ofNat 8 ((251 - a.toNat) % 251) := by
  rw [← toNat_251_sub_zext16 ha]
  exact mod251_eq_ofNat _

theorem p251Ops_mul_eq_one_iff (a b : Byte) : p251Ops.mul a b = 0x01 ↔ a.toNat * b.toNat % 251 = 1 := by
  rw [← BitVec.toNat_inj, ← toNat_zext16_mul, ← toNat_mod251]
  rfl

/-! ### The operand policy `OOR(a)` (R121) -/

theorem toNat_byte_mod251 (a : Byte) : (a % 251).toNat = a.toNat % 251 := BitVec.toNat_umod

theorem byte_mod251_dom (a : Byte) : p251Field.dom (a % 251) = true := by
  rw [p251_dom_iff, toNat_byte_mod251]
  omega

theorem p251Operand_of_accepted {policy : OorPolicy} {a : Byte} (h : a.toNat ≤ 250 ∨ policy = .normalize) :
    p251Operand policy a = some (a % 251) := by
  unfold p251Operand
  split
  case isTrue hle =>
    have hle : a.toNat ≤ 250 := BitVec.le_def.1 hle
    exact congrArg some (BitVec.eq_of_toNat_eq (by rw [toNat_byte_mod251]; omega))
  case isFalse hgt =>
    obtain rfl := h.resolve_left fun hle => hgt (BitVec.le_def.2 hle)
    rfl

section
variable {s : State} {a : Byte} (run : Byte → Host.Outcome State Fault Refusal)

/-- An accepted operand is executed as its residue. -/
theorem withP251Operand_of_accepted (h : a.toNat ≤ 250 ∨ s.config.p251Oor = .normalize) :
    withP251Operand a s run = run (a % 251) := by
  rw [withP251Operand, p251Operand_of_accepted h]

theorem withP251Operand_of_refused (hgt : 250 < a.toNat) (hfault : s.config.p251Oor = .fault) :
    withP251Operand a s run = .next (s.answered ⟨.domain, 0x00⟩) := by
  have hnone : p251Operand .fault a = none := if_neg fun hle => Nat.not_le.2 hgt (BitVec.le_def.1 hle)
  rw [withP251Operand, hfault, hnone, State.raiseDomain_eq]

end

/-- P251.ISZ, NEG and INV answer an accepted operand as they answer its residue. -/
theorem exec_p251_residue {s : State} {a : Byte} (h : a.toNat ≤ 250 ∨ s.config.p251Oor = .normalize) :
    exec (.p251Isz a) s = exec (.p251Isz (a % 251)) s ∧ exec (.p251Neg a) s = exec (.p251Neg (a % 251)) s ∧
      exec (.p251Inv a) s = exec (.p251Inv (a % 251)) s := by
  have hop (run) : withP251Operand a s run = withP251Operand (a % 251) s run :=
    (withP251Operand_of_accepted run h).trans (withP251Operand_of_dom (byte_mod251_dom a) s run).symm
  exact ⟨hop _, hop _, hop _⟩

/-! ### Residues -/

theorem boolByte_beq_zero (a : Byte) : boolByte (a == 0) = if a.toNat = 0 then 0x01 else 0x00 :=
  if_congr (beq_iff_eq.trans BitVec.toNat_inj.symm) rfl rfl

section
variable {a : Byte} (ha : p251Field.dom a = true) (s : State)
include ha

theorem exec_p251Isz : exec (.p251Isz a) s = .next (s.answered ⟨.ok, if a.toNat = 0 then 0x01 else 0x00⟩) := by
  rw [← boolByte_beq_zero]
  exact withP251Operand_of_dom ha s _

theorem exec_p251Neg : exec (.p251Neg a) s = .next (s.answered ⟨.ok, BitVec.ofNat 8 ((251 - a.toNat) % 251)⟩) := by
  rw [← p251Ops_neg_eq ((p251_dom_iff a).1 ha)]
  exact p251_isField.computes.neg s a ha

/-- Every nonzero residue has exactly one inverse among the residues (R126). -/
theorem p251Ops_inv_unique (hne : a ≠ 0x00) :
    (p251Ops.inv a).toNat ≤ 250 ∧ a.toNat * (p251Ops.inv a).toNat % 251 = 1 ∧
      ∀ y : Byte, y.toNat ≤ 250 → a.toNat * y.toNat % 251 = 1 → y = p251Ops.inv a := by
  have hinv := p251_closed.inv a ha hne
  have hmul := p251_laws.mul_inv a ha hne
  refine ⟨(p251_dom_iff _).1 hinv, (p251Ops_mul_eq_one_iff _ _).1 hmul, fun y hy hay => ?_⟩
  exact p251_laws.inv_unique p251_closed.one ha ((p251_dom_iff y).2 hy) hinv ((p251Ops_mul_eq_one_iff _ _).2 hay) hmul

end

/-- Settles O5: an accepted operand is executed as its residue, where NEG and INV are those of the field; a refused one
is answered DOMAIN. -/
theorem p251UnaryOperations : Obligations.P251UnaryOperations := by
  intro s a b
  refine ⟨⟨decode_append_of_command rfl rfl, decode_append_of_command rfl rfl, decode_append_of_command rfl rfl⟩,
    fun haccepted => ?accepted, fun hgt hfault => ?refused⟩
  case accepted =>
    obtain ⟨hisz, hneg, hinv⟩ := exec_p251_residue haccepted
    rw [hisz, hneg, hinv, ← toNat_byte_mod251]
    have hdom := byte_mod251_dom a
    generalize a % 251 = x at hdom ⊢
    refine ⟨exec_p251Isz hdom s, exec_p251Neg hdom s, fun hzero => ?_, fun hnonzero => ?_⟩
    · obtain rfl : x = 0x00 := BitVec.eq_of_toNat_eq hzero
      exact p251_isField.computes.inv_zero s
    · have hne : x ≠ 0x00 := fun h => hnonzero (congrArg BitVec.toNat h)
      obtain ⟨hle, hmul, hunique⟩ := p251Ops_inv_unique hdom hne
      exact ⟨p251Ops.inv x, hle, hmul, hunique, p251_isField.computes.inv s x hdom hne⟩
  case refused =>
    exact ⟨withP251Operand_of_refused _ hgt hfault, withP251Operand_of_refused _ hgt hfault,
      withP251Operand_of_refused _ hgt hfault⟩

/-- Settles O6: ADD and MUL take every byte, and their 16-bit sum and product do not wrap. -/
theorem p251BinaryOperations : Obligations.P251BinaryOperations := by
  intro s a b
  refine ⟨⟨decode_append_of_command rfl rfl, decode_append_of_command rfl rfl⟩, ?_, ?_⟩
  · rw [← p251Ops_add_eq]
    rfl
  · rw [← p251Ops_mul_eq]
    rfl

end Sys2Proof.Machine
end

section
/-!
The multiplier as arithmetic in the ring GF(2)[x] / (x^8+x^4+x^3+x+1). A byte read as a polynomial (R10) has a residue
there; XOR adds residues and, because every nonzero byte is a power of 3 (R153), `PolyMul` multiplies them (R131 fact
(4)). A map from a field that respects both operations is injective, so a residue determines its byte.
-/
namespace Sys2Proof.Machine

open Polynomial AdjoinRoot

/-! ### Bytes as polynomials -/

/-- The polynomial over GF(2) whose coefficients are the bits of a byte (R10). -/
noncomputable def bytePoly (x : Byte) : (ZMod 2)[X] :=
  ∑ i ∈ Finset.range 8, if x.getLsbD i then X ^ i else 0

/-- The reducing polynomial of R7, as a polynomial. -/
noncomputable def reducingPoly : (ZMod 2)[X] := X ^ 8 + X ^ 4 + X ^ 3 + X + 1

/-- The residue of a byte modulo the reducing polynomial. -/
noncomputable def residue (x : Byte) : AdjoinRoot reducingPoly := mk reducingPoly (bytePoly x)

theorem bytePoly_xor (x y : Byte) : bytePoly (x ^^^ y) = bytePoly x + bytePoly y := by
  simp only [bytePoly, ← Finset.sum_add_distrib]
  refine Finset.sum_congr rfl fun i _ => ?_
  rw [BitVec.getLsbD_xor]
  cases x.getLsbD i <;> cases y.getLsbD i <;> simp [CharTwo.add_self_eq_zero]

theorem residue_xor (x y : Byte) : residue (x ^^^ y) = residue x + residue y := by
  rw [residue, bytePoly_xor, map_add, residue, residue]

theorem residue_zero : residue 0x00 = 0 := by simp [residue, bytePoly]

/-- Bit `k` is the monomial `x^k`. -/
theorem residue_twoPow {k : Nat} (hk : k < 8) : residue (BitVec.twoPow 8 k) = root reducingPoly ^ k := by
  have hpoly : bytePoly (BitVec.twoPow 8 k) = X ^ k := by
    simp [bytePoly, BitVec.getLsbD_twoPow, hk]
  rw [residue, hpoly, map_pow, mk_X]

theorem residue_one : residue 0x01 = 1 := (residue_twoPow (k := 0) (by decide)).trans (pow_zero _)

/-! ### Products of residues -/

theorem singleBits_eq_map_twoPow : singleBits = (List.range 8).map (BitVec.twoPow 8) := rfl

/-- Maps from bytes that turn XOR into addition agree when they agree on the single bits; `XorLinear.eq_of_singleBits`
with values in any group. -/
theorem eq_of_xor_add {A : Type} [AddGroup A] {f g : Byte → A} (hf : ∀ x y, f (x ^^^ y) = f x + f y)
    (hg : ∀ x y, g (x ^^^ y) = g x + g y) (h : ∀ k < 8, f (BitVec.twoPow 8 k) = g (BitVec.twoPow 8 k))
    (x : Byte) : f x = g x := by
  have map_zero {k : Byte → A} (hk : ∀ x y, k (x ^^^ y) = k x + k y) : k 0x00 = 0 := by simpa using hk 0x00 0x00
  rw [← foldr_xor_setBits x]
  refine List.foldrRecOn (motive := fun x => f x = g x) _ _ ((map_zero hf).trans (map_zero hg).symm)
    fun acc hacc bit hbit => ?_
  have hbit := List.mem_of_mem_filter hbit
  rw [singleBits_eq_map_twoPow] at hbit
  obtain ⟨k, hk, rfl⟩ := List.mem_map.1 hbit
  rw [hf, hg, hacc, h k (List.mem_range.1 hk)]

/-- The one reduction there is: `x^8 = x^4+x^3+x+1`. -/
theorem root_pow_eight :
    root reducingPoly ^ 8 = root reducingPoly ^ 4 + root reducingPoly ^ 3 + root reducingPoly + 1 := by
  have hdvd : mk reducingPoly (X ^ 8) = mk reducingPoly (X ^ 4 + X ^ 3 + X + 1) := by
    refine mk_eq_mk.2 (dvd_of_eq ?_)
    rw [CharTwo.sub_eq_add, reducingPoly]
    ring
  simpa using hdvd

/-- The generator 3 is `x + 1`. -/
theorem residue_three : residue 0x03 = root reducingPoly + 1 := by
  rw [show (0x03 : Byte) = BitVec.twoPow 8 1 ^^^ BitVec.twoPow 8 0 from rfl, residue_xor,
    residue_twoPow (by decide), residue_twoPow (by decide), pow_one, pow_zero]

/-- On one bit, `x^k`, the product with `x + 1` is `x^(k+1) + x^k`, which only `k = 7` reduces. -/
theorem residue_polyMul_twoPow_three {k : Nat} (hk : k < 8) :
    residue (polyMul (BitVec.twoPow 8 k) 0x03) = residue (BitVec.twoPow 8 k) * residue 0x03 := by
  rw [residue_three, residue_twoPow hk, mul_add, mul_one, ← pow_succ]
  rcases Nat.lt_or_eq_of_le (Nat.le_of_lt_succ hk) with hlt | rfl
  · have hproduct : ∀ k < 7, polyMul (BitVec.twoPow 8 k) 0x03 = BitVec.twoPow 8 (k + 1) ^^^ BitVec.twoPow 8 k := by
      decide
    rw [hproduct k hlt, residue_xor, residue_twoPow (by omega), residue_twoPow hk]
  · have hproduct : polyMul (BitVec.twoPow 8 7) 0x03 =
        BitVec.twoPow 8 4 ^^^ BitVec.twoPow 8 3 ^^^ BitVec.twoPow 8 1 ^^^ BitVec.twoPow 8 0 ^^^ BitVec.twoPow 8 7 := by
      decide
    rw [root_pow_eight]
    simp only [hproduct, residue_xor, residue_twoPow, Nat.reduceLT, pow_one, pow_zero]

theorem residue_polyMul_three (x : Byte) : residue (polyMul x 0x03) = residue x * residue 0x03 := by
  refine eq_of_xor_add (f := fun x => residue (polyMul x 0x03)) (g := fun x => residue x * residue 0x03)
    (fun x y => ?_) (fun x y => ?_) (fun k hk => residue_polyMul_twoPow_three hk) x
  · rw [polyMul_xor_left, residue_xor]
  · rw [residue_xor, add_mul]

theorem residue_powerOfThree (k : Nat) : residue (powerOfThree k) = residue 0x03 ^ k := by
  induction k with
  | zero => rw [powerOfThree_zero, residue_one, pow_zero]
  | succ k ih => rw [powerOfThree_succ, residue_polyMul_three, ih, pow_succ]

/-- Residues multiply: the zero byte apart, both factors are powers of 3, whose exponents add. -/
theorem residue_polyMul (x y : Byte) : residue (polyMul x y) = residue x * residue y := by
  by_cases hx : x = 0x00
  · rw [hx, zero_polyMul, residue_zero, zero_mul]
  by_cases hy : y = 0x00
  · rw [hy, polyMul_zero, residue_zero, mul_zero]
  rw [← powerOfThree_logEntry hx, ← powerOfThree_logEntry hy, polyMul_powerOfThree, residue_powerOfThree,
    residue_powerOfThree, residue_powerOfThree, pow_add]

/-! ### A residue determines its byte -/

theorem residueRing_nontrivial : Nontrivial (AdjoinRoot reducingPoly) := by
  have hdegree : degree reducingPoly = 8 := by
    unfold reducingPoly
    compute_degree!
  exact AdjoinRoot.nontrivial _ (by rw [hdegree]; decide)

/-- A nonzero byte has an inverse, so its residue is a unit. -/
theorem residue_ne_zero {x : Byte} (hx : x ≠ 0x00) : residue x ≠ 0 := by
  have := residueRing_nontrivial
  have hunit : residue x * residue (inverseByLog x) = 1 := by
    rw [← residue_polyMul, polyMul_inverseByLog hx, residue_one]
  exact left_ne_zero_of_mul_eq_one hunit

theorem residue_inj {x y : Byte} : residue x = residue y ↔ x = y := by
  refine ⟨fun h => ?_, congrArg residue⟩
  have hzero : residue (x ^^^ y) = 0 := by
    rw [residue_xor, h, ← residue_xor, BitVec.xor_self]
    exact residue_zero
  exact BitVec.xor_eq_zero_iff.1 (not_imp_not.1 residue_ne_zero hzero)

/-- `PolyMul` is the product modulo the reducing polynomial (R131 fact (4)). -/
theorem polyMul_eq_iff (x y z : Byte) :
    polyMul x y = z ↔ reducingPoly ∣ bytePoly x * bytePoly y - bytePoly z := by
  rw [← residue_inj, residue_polyMul, residue, residue, residue, ← map_mul, mk_eq_mk]

end Sys2Proof.Machine
end

section
/-!
The obligations of the F256 family without tables (44_gf256_poly.md). ADD, NEG, MUL and INV are those of
`f256_isField`; what is added is ISZ, SUB, the powers of F256.INV2F, and what `PolyMul` computes.
-/
namespace Sys2Proof.Machine

theorem State.answered_inj {s : State} {r r' : Response} : s.answered r = s.answered r' ↔ r = r' := by
  refine ⟨fun h => ?_, congrArg s.answered⟩
  simpa using congrArg State.responses h

theorem exec_f256Mul (s : State) (a b : Byte) :
    exec (.f256Mul a b) s = .next (s.answered ⟨.ok, polyMul a b⟩) := f256_isField.computes.mul s a b rfl rfl

theorem exec_f256Mul_eq_ok_iff {s : State} {x y z : Byte} :
    exec (.f256Mul x y) s = .next (s.answered ⟨.ok, z⟩) ↔ polyMul x y = z := by
  rw [exec_f256Mul, Host.Outcome.next.injEq, State.answered_inj, Response.mk.injEq, and_iff_right rfl]

/-- Settles O9: MUL answers the one byte `PolyMul` computes, and the residues identify it. -/
theorem polyMulIsMultiplicationModuloReducer : Obligations.PolyMulIsMultiplicationModuloReducer :=
  fun _ x y z => exec_f256Mul_eq_ok_iff.trans (polyMul_eq_iff x y z)

/-- Settles O10: the search finds the inverse that exists, and there is at most one by the field laws (R137). -/
theorem f256InverseBySearch : Obligations.F256InverseBySearch := by
  intro s a b
  refine ⟨decode_append_of_command rfl rfl, ?zero, fun hne => ⟨inverseByLog a, ?inverse, ?unique, ?answer⟩⟩
  case zero =>
    rintro rfl
    exact f256_isField.computes.inv_zero s
  case inverse => exact polyMul_inverseByLog hne
  case unique => exact fun y hy => f256_laws.inv_unique rfl rfl rfl rfl hy (polyMul_inverseByLog hne)
  case answer => exact f256_isField.computes.inv s a rfl hne

/-- Settles O11: 253 multiplications of `a` by itself reach `a^254`, the inverse by logarithms. -/
theorem f256InverseByRepeatedMultiplication : Obligations.F256InverseByRepeatedMultiplication := by
  intro s a b
  refine ⟨decode_append_of_command rfl rfl, ?zero, fun hne => ?nonzero⟩
  case zero =>
    rintro rfl
    rfl
  case nonzero =>
    rw [iterate_polyMul_253 hne]
    exact ⟨exec_f256Inv2f hne s, polyMul_inverseByLog hne⟩

theorem exec_f256Isz (s : State) (a : Byte) :
    exec (.f256Isz a) s = .next (s.answered ⟨.ok, if a = 0x00 then 0x01 else 0x00⟩) := by
  have hbool : boolByte (a == 0x00) = if a = 0x00 then 0x01 else 0x00 := if_congr beq_iff_eq rfl rfl
  rw [← hbool]
  rfl

/-- Settles O7: SUB is ADD, and no operand is refused. -/
theorem f256XorOperations : Obligations.F256XorOperations := by
  intro s a b
  have hadd := f256_isField.computes.add s a b rfl rfl
  exact ⟨⟨decode_append_of_command rfl rfl, decode_append_of_command rfl rfl, decode_append_of_command rfl rfl,
    decode_append_of_command rfl rfl⟩, exec_f256Isz s a, hadd, hadd, f256_isField.computes.neg s a rfl⟩

/-- Settles O8: zero and identity are laws of `PolyMul`; the other cases are computed. -/
theorem f256Multiplication : Obligations.F256Multiplication :=
  ⟨fun s a b => ⟨decode_append_of_command rfl rfl, exec_f256Mul s a b⟩, fun a => ⟨polyMul_zero a, polyMul_one a⟩,
    by decide⟩

end Sys2Proof.Machine
end

section
/-!
The obligations of the F256 family with tables (45_gf256_tables.md). What an operation answers from built tables is said
by its `exec_` lemma; what is added is TGEN, DIV, the answers that touch no table, and what the built tables hold.
-/
namespace Sys2Proof.Machine

/-! ### The table generator -/

theorem exec_f256Tgen (s : State) :
    exec .f256Tgen s = .next ((ensureTables s).answered ⟨.ok, 0x00⟩) := rfl

theorem exec_f256Tgen_of_ensuresPrinted {s : State} (hs : s.EnsuresPrinted) :
    exec .f256Tgen s = .next (s.tablesBuilt.answered ⟨.ok, 0x00⟩) := by
  rw [State.EnsuresPrinted] at hs
  rw [exec_f256Tgen, hs]

/-- Settles O12: TGEN is `EnsureTables()` and one response. -/
theorem f256TableGeneration : Obligations.F256TableGeneration := by
  intro s a b
  refine ⟨decode_append_of_command rfl rfl, fun hs => ?unbuiltOrBuilt, fun hready => ?built⟩
  case unbuiltOrBuilt => exact exec_f256Tgen_of_ensuresPrinted hs.ensuresPrinted
  case built => rw [exec_f256Tgen, ensureTables_of_ready hready]

/-! ### What the built tables hold -/

/-- A printed `EXP` entry is reached from 1 by as many multiplications by 3 (R151, R153). -/
theorem expEntry_eq_iterate {i : Nat} (hi : i ≤ 254) : expEntry i = (fun v => polyMul v 0x03)^[i] 0x01 := by
  have hpow : (fun v => polyMul v 0x03)^[i] 0x01 = powerOfThree (0 + i * 1) := iterate_polyMul_powerOfThree 0 1 i
  rw [hpow, Nat.zero_add, Nat.mul_one, powerOfThree, Nat.mod_eq_of_lt (by omega)]

theorem printedExp_read_above {i : Nat} (hi : 254 < i) : printedExp.read i = none :=
  Memory.read_above hi printedExp_wf

theorem printedLog_read_above {i : Nat} (hi : 255 < i) : printedLog.read i = none :=
  Memory.read_above hi printedLog_wf

/-- Settles O13: unbuilt tables in canonical form, whatever they hold, are filled as printed. -/
theorem builtTablesAreThePrintedPowersOfThree : Obligations.BuiltTablesAreThePrintedPowersOfThree := by
  intro s hexp hlog hready
  have hs := State.ensuresPrinted_of_unbuilt hready hexp hlog
  exact ⟨_, exec_f256Tgen_of_ensuresPrinted hs, rfl,
    fun i hi => ⟨printedExp_read i hi, expEntry_eq_iterate hi⟩,
    fun _ hi => printedExp_read_above hi,
    fun x hx => ⟨printedLog_read x, logEntry_le x, expEntry_logEntry x hx⟩,
    printedLog_read 0x00,
    fun _ hi => printedLog_read_above hi⟩

/-! ### Lookups -/

/-- Settles O14: only 0x00 fails the domain check. -/
theorem f256LogLookup : Obligations.F256LogLookup := by
  intro s a b
  refine ⟨decode_append_of_command rfl rfl, fun ha => ?zero, fun ha hs => exec_f256Log hs ha⟩
  case zero =>
    have hdom : logOperandValid a = false := bne_eq_false_iff_eq.2 ha
    exact checkDomain_of_invalid hdom s _

theorem expOperandValid_of_lt {e : Byte} (h : 254 < e.toNat) : expOperandValid e = false :=
  decide_eq_false (Nat.not_le.mpr h)

/-- Settles O15: only 0xFF fails the domain check, and no power of 3 is zero. -/
theorem f256ExpLookup : Obligations.F256ExpLookup := by
  intro s a b
  refine ⟨decode_append_of_command rfl rfl, fun hgt => ?outside, fun hle hs => ?inside⟩
  case outside => exact checkDomain_of_invalid (expOperandValid_of_lt hgt) s _
  case inside => exact ⟨exec_f256Exp hs hle, expEntry_ne_zero hle⟩

/-! ### Products, inverses and quotients -/

theorem printedMul2_of_ne_zero {x y : Byte} (hx : x ≠ 0x00) (hy : y ≠ 0x00) :
    printedMul2 x y = expEntry (((logEntry x).toNat + (logEntry y).toNat) % 255) :=
  if_neg (not_or.2 ⟨hx, hy⟩)

/-- Settles O16: `Mul2` of nonzero operands is the entry at the sum of their logarithms. -/
theorem f256MultiplicationByLogs : Obligations.F256MultiplicationByLogs := by
  intro s a b
  refine ⟨decode_append_of_command rfl rfl, fun hzero => exec_f256Mul2_zero hzero s, fun ha hb hs => ?nonzero⟩
  case nonzero =>
    rw [← printedMul2_of_ne_zero ha hb]
    exact exec_f256Mul2 hs ha hb

/-- Settles O17: `inverseByLog` is the entry R159 names. -/
theorem f256InverseByTable : Obligations.F256InverseByTable := by
  intro s a b
  refine ⟨decode_append_of_command rfl rfl, ?zero, fun ha hs => exec_f256Inv2 hs ha⟩
  case zero =>
    rintro rfl
    rfl

theorem tableInverse_of_inv {s : State} (hs : s.Inv) {a : Byte} (ha : a ≠ 0x00) :
    tableInverse a s = .ok (inverseByLog a, s.tablesBuilt) := by
  rw [tableInverse, lookupThroughLog_of_inv hs _ ha, toNat_255_sub_zext16, expEntry_mod, inverseByLog]

theorem exec_f256Div_of_zero_divisor (a : Byte) (s : State) :
    exec (.f256Div a 0x00) s = .next (s.answered ⟨.absent, 0x00⟩) := rfl

theorem exec_f256Div_of_zero_dividend {b : Byte} (hb : b ≠ 0x00) (s : State) :
    exec (.f256Div 0x00 b) s = .next (s.answered ⟨.ok, 0x00⟩) := if_neg hb

theorem exec_f256Div {s : State} (hs : s.Inv) {a b : Byte} (ha : a ≠ 0x00) (hb : b ≠ 0x00) :
    exec (.f256Div a b) s = .next (s.tablesBuilt.answered ⟨.ok, polyMul a (inverseByLog b)⟩) := by
  simp only [exec, execF256Div, if_neg hb, if_neg ha, tableInverse_of_inv hs hb, State.respondOk_eq]

/-- The quotient times the divisor is the dividend (R160). -/
theorem polyMul_quotient {b : Byte} (hb : b ≠ 0x00) (a : Byte) : polyMul (polyMul a (inverseByLog b)) b = a := by
  rw [polyMul_assoc, polyMul_comm _ b, polyMul_inverseByLog hb, polyMul_one]

/-- Settles O18: the quotient is the product with the divisor's inverse, by associativity. -/
theorem f256Division : Obligations.F256Division := by
  intro s a b
  refine ⟨decode_append_of_command rfl rfl, ?zeroDivisor, ?zeroDividend, fun hb ha hs => ?nonzero⟩
  case zeroDivisor =>
    rintro rfl
    exact exec_f256Div_of_zero_divisor a s
  case zeroDividend =>
    rintro hb rfl
    exact exec_f256Div_of_zero_dividend hb s
  case nonzero => exact ⟨polyMul a (inverseByLog b), rfl, polyMul_quotient hb a, exec_f256Div hs ha hb⟩

/-! ### Powers -/

/-- Settles O19: `powerOfThree` is the entry R161 names. -/
theorem f256PowerByLog : Obligations.F256PowerByLog := by
  intro s a e
  refine ⟨decode_append_of_command rfl rfl, ?exponentZero, ?baseZero, fun he ha hs => exec_f256Pow hs ha he⟩
  case exponentZero =>
    rintro rfl
    rfl
  case baseZero =>
    rintro he rfl
    exact if_neg he

/-- Settles O20: the loop runs `e - 1` times, at exponent 1 not at all. -/
theorem f256PowerByRepeatedMul2 : Obligations.F256PowerByRepeatedMul2 := by
  intro s a e
  refine ⟨decode_append_of_command rfl rfl, ?exponentZero, ?exponentOne, ?baseZero,
    fun he ha hs => exec_f256Pow2 hs ha he⟩
  case exponentZero =>
    rintro rfl
    rfl
  case exponentOne =>
    rintro rfl
    rfl
  case baseZero =>
    rintro he rfl
    exact exec_f256Pow2_zero he s

end Sys2Proof.Machine
end

section
/-!
Which status an execution answers, in every state. The operation and the parameter determine it by the spec's own two
lists, the causes of DOMAIN (R183) and the causes of ABSENT (R182); whatever they leave is OK (R181).
-/
namespace Sys2Proof

/-- The status of an operation by the lists of R183 and R182. -/
def Instr.listedStatus (cfg : Config) (i : Instr) : Machine.Status :=
  if i.wellFormed cfg then if i.absentCause cfg then .absent else .ok else .domain

theorem Instr.listedStatus_eq_domain_iff {cfg : Config} {i : Instr} :
    i.listedStatus cfg = .domain ↔ i.wellFormed cfg = false := by
  cases hwf : i.wellFormed cfg <;> cases habsent : i.absentCause cfg <;> simp [Instr.listedStatus, hwf, habsent]

theorem Instr.listedStatus_eq_absent_iff {cfg : Config} {i : Instr} :
    i.listedStatus cfg = .absent ↔ i.wellFormed cfg = true ∧ i.absentCause cfg = true := by
  cases hwf : i.wellFormed cfg <;> cases habsent : i.absentCause cfg <;> simp [Instr.listedStatus, hwf, habsent]

theorem Instr.listedStatus_eq_ok {cfg : Config} {i : Instr} (hwf : i.wellFormed cfg = true)
    (habsent : i.absentCause cfg = false) : i.listedStatus cfg = .ok := by
  simp [Instr.listedStatus, hwf, habsent]

theorem Instr.listedStatus_isFault_of_wellFormed {cfg : Config} {i : Instr} (hwf : i.wellFormed cfg = true) :
    (i.listedStatus cfg).isFault = false := by
  cases habsent : i.absentCause cfg <;> simp [Instr.listedStatus, hwf, habsent, Machine.Status.isFault]

end Sys2Proof

namespace Sys2Proof.Machine

/-! ### The machine's domain checks against the list of R183 -/

theorem gf2Byte_eq_gf2Valid : ∀ a : Byte, Instr.wellFormed.gf2Byte a = gf2Valid a := by decide

theorem f3Byte_eq_f3Valid : ∀ a : Byte, Instr.wellFormed.f3Byte a = f3Valid a := by decide

theorem nonzero_eq_logOperandValid : ∀ a : Byte, decide (a.toNat ≠ 0) = logOperandValid a := by decide

theorem ne_255_eq_expOperandValid : ∀ e : Byte, decide (e.toNat ≠ 255) = expOperandValid e := by decide

theorem p251Byte_iff (cfg : Config) (a : Byte) :
    Instr.wellFormed.p251Byte cfg a = true ↔ a.toNat ≤ 250 ∨ cfg.p251Oor = .normalize := by
  simp [Instr.wellFormed.p251Byte, Nat.lt_succ_iff]

/-! ### DOMAIN -/

/-- A refused P251 operand ends the request, whatever the operation would do (R121). -/
theorem withP251Operand_of_not_p251Byte {a : Byte} {s : State} (h : Instr.wellFormed.p251Byte s.config a = false)
    (run : Byte → Host.Outcome State Fault Refusal) :
    withP251Operand a s run = .next (s.answered ⟨.domain, 0x00⟩) := by
  have hrefused := mt (p251Byte_iff s.config a).2 (Bool.eq_false_iff.1 h)
  obtain ⟨hgt, hpolicy⟩ := not_or.1 hrefused
  refine withP251Operand_of_refused run (Nat.lt_of_not_le hgt) ?_
  cases hp : s.config.p251Oor with
  | fault => rfl
  | normalize => exact absurd hp hpolicy

/-- Every cause of R183 fails the operation's own check, before anything else it does. -/
theorem exec_of_not_wellFormed {i : Instr} {s : State} (h : i.wellFormed s.config = false) :
    exec i s = .next (s.answered ⟨.domain, 0x00⟩) := by
  cases i with
  | gf2Isz a | gf2Neg a | gf2Inv a | gf2Add a b | gf2Mul a b =>
    simp only [Instr.wellFormed, gf2Byte_eq_gf2Valid] at h
    exact checkDomain_of_invalid h s _
  | f3Isz a | f3Neg a | f3Inv a | f3Add a b | f3Mul a b =>
    simp only [Instr.wellFormed, f3Byte_eq_f3Valid] at h
    exact checkDomain_of_invalid h s _
  | p251Isz a | p251Neg a | p251Inv a => exact withP251Operand_of_not_p251Byte h _
  | f256Log a => exact checkDomain_of_invalid ((nonzero_eq_logOperandValid a).symm.trans h) s _
  | f256Exp e => exact checkDomain_of_invalid ((ne_255_eq_expOperandValid e).symm.trans h) s _
  | _ => cases h

/-! ### ABSENT -/

theorem byte_eq_zero_of_toNat_beq {a : Byte} (h : (a.toNat == 0) = true) : a = 0x00 :=
  BitVec.eq_of_toNat_eq (beq_iff_eq.1 h)

theorem byte_ne_zero_of_toNat_beq {a : Byte} (h : (a.toNat == 0) = false) : a ≠ 0x00 := by
  rintro rfl
  cases h

/-- The causes of ABSENT on P251.INV: an accepted operand with residue 0 (R126). -/
theorem p251Inv_absentCause_iff {cfg : Config} {a : Byte} (haccepted : a.toNat ≤ 250 ∨ cfg.p251Oor = .normalize) :
    (Instr.p251Inv a).absentCause cfg = true ↔ a % 251 = 0x00 := by
  have hlt := a.isLt
  have hresidue : a % 251 = 0x00 ↔ a.toNat = 0 ∨ a.toNat = 251 := by
    rw [← BitVec.toNat_inj, toNat_byte_mod251]
    change a.toNat % 251 = 0 ↔ _
    omega
  simp only [Instr.absentCause, Bool.or_eq_true, Bool.and_eq_true, beq_iff_eq, hresidue]
  refine or_congr_right (and_iff_left_of_imp fun h251 => ?_)
  exact haccepted.resolve_left (by omega)

/-- No cause of ABSENT is a cause of DOMAIN. -/
theorem wellFormed_of_absentCause {cfg : Config} {i : Instr} (h : i.absentCause cfg = true) :
    i.wellFormed cfg = true := by
  cases i with
  | gf2Inv a | f3Inv a =>
    obtain rfl := byte_eq_zero_of_toNat_beq h
    rfl
  | p251Inv a =>
    refine (p251Byte_iff cfg a).2 ?_
    simp only [Instr.absentCause, Bool.or_eq_true, Bool.and_eq_true, beq_iff_eq] at h
    exact h.imp (fun hzero => by omega) And.right
  | f256Inv a | f256Inv2 a | f256Inv2f a | f256Div a b => rfl
  | _ => cases h

/-- Every cause of R182 is found before a search, a multiplication or a table. -/
theorem exec_of_absentCause {i : Instr} {s : State} (h : i.absentCause s.config = true) :
    exec i s = .next (s.answered ⟨.absent, 0x00⟩) := by
  cases i with
  | gf2Inv a | f3Inv a | f256Inv a | f256Inv2 a | f256Inv2f a =>
    obtain rfl := byte_eq_zero_of_toNat_beq h
    rfl
  | p251Inv a =>
    have haccepted := (p251Byte_iff s.config a).1 (wellFormed_of_absentCause h)
    obtain ⟨-, -, hinv⟩ := exec_p251_residue haccepted
    rw [hinv, (p251Inv_absentCause_iff haccepted).1 h]
    exact p251_isField.computes.inv_zero s
  | f256Div a b =>
    obtain rfl := byte_eq_zero_of_toNat_beq h
    exact exec_f256Div_of_zero_divisor a s
  | _ => cases h

/-! ### OK -/

/-- If the outcome is a next state, its last response is OK. -/
def OkIfAnswered (outcome : Host.Outcome State Fault Refusal) : Prop :=
  ∀ t : State, outcome = .next t → ∃ (u : State) (v : Byte), t = u.answered ⟨.ok, v⟩

theorem okIfAnswered_of_next {outcome : Host.Outcome State Fault Refusal} {u : State} {v : Byte}
    (h : outcome = .next (u.answered ⟨.ok, v⟩)) : OkIfAnswered outcome := by
  subst h
  rintro _ ⟨⟩
  exact ⟨u, v, rfl⟩

theorem okIfAnswered_ok (u : State) (v : Byte) : OkIfAnswered (.next (u.answered ⟨.ok, v⟩)) :=
  okIfAnswered_of_next rfl

theorem okIfAnswered_finish (result : Except Fault (Byte × State)) : OkIfAnswered (finish result) := by
  cases result with
  | ok answer => exact okIfAnswered_ok _ _
  | error f => exact fun t h => nomatch h

theorem okIfAnswered_ite {p : Prop} [Decidable p] {run run' : Host.Outcome State Fault Refusal}
    (hrun : OkIfAnswered run) (hrun' : OkIfAnswered run') : OkIfAnswered (if p then run else run') := by
  split <;> assumption

theorem okIfAnswered_checkDomain {inDomain : Bool} (h : inDomain = true) {s : State}
    {run : Host.Outcome State Fault Refusal} (hrun : OkIfAnswered run) : OkIfAnswered (checkDomain inDomain s run) := by
  rwa [checkDomain_of_valid h]

theorem okIfAnswered_ite_neg {p : Prop} [Decidable p] (hp : ¬p) {run run' : Host.Outcome State Fault Refusal}
    (hrun' : OkIfAnswered run') : OkIfAnswered (if p then run else run') := by
  rwa [if_neg hp]

/-- Past the causes of DOMAIN and ABSENT an operation answers OK, unless a table read stops the model. A search finds
its candidate, by the field laws. -/
theorem exec_okIfAnswered {i : Instr} {s : State} (hwf : i.wellFormed s.config = true)
    (habsent : i.absentCause s.config = false) : OkIfAnswered (exec i s) := by
  cases i with
  | gf2Isz a | gf2Neg a | gf2Add a b | gf2Mul a b =>
    simp only [Instr.wellFormed, gf2Byte_eq_gf2Valid] at hwf
    exact okIfAnswered_checkDomain hwf (okIfAnswered_ok s _)
  | gf2Inv a =>
    exact okIfAnswered_checkDomain (gf2Byte_eq_gf2Valid a ▸ hwf)
      (okIfAnswered_ite_neg (byte_ne_zero_of_toNat_beq habsent) (okIfAnswered_ok s _))
  | f3Isz a | f3Neg a | f3Add a b | f3Mul a b =>
    simp only [Instr.wellFormed, f3Byte_eq_f3Valid] at hwf
    exact okIfAnswered_checkDomain hwf (okIfAnswered_ok s _)
  | f3Inv a =>
    exact okIfAnswered_checkDomain (f3Byte_eq_f3Valid a ▸ hwf)
      (okIfAnswered_ite_neg (byte_ne_zero_of_toNat_beq habsent) (okIfAnswered_ok s _))
  | p251Isz a | p251Neg a =>
    have hoperand (run) := withP251Operand_of_accepted run ((p251Byte_iff s.config a).1 hwf)
    simp only [exec, execP251Isz, execP251Neg, hoperand]
    exact okIfAnswered_ok s _
  | p251Inv a =>
    have haccepted := (p251Byte_iff s.config a).1 hwf
    have hne := mt (p251Inv_absentCause_iff haccepted).2 (Bool.eq_false_iff.1 habsent)
    obtain ⟨-, -, hinv⟩ := exec_p251_residue haccepted
    exact okIfAnswered_of_next (hinv.trans (p251_isField.computes.inv s _ (byte_mod251_dom a) hne))
  | p251Add a b | p251Mul a b | f256Add a b | f256Sub a b | f256Mul a b | f256Isz a | f256Neg a =>
    exact okIfAnswered_ok s _
  | f256Tgen => exact okIfAnswered_ok (ensureTables s) _
  | f256Inv a => exact okIfAnswered_of_next (f256_isField.computes.inv s a rfl (byte_ne_zero_of_toNat_beq habsent))
  | f256Inv2f a => exact okIfAnswered_ite_neg (byte_ne_zero_of_toNat_beq habsent) (okIfAnswered_ok s _)
  | f256Inv2 a => exact okIfAnswered_ite_neg (byte_ne_zero_of_toNat_beq habsent) (okIfAnswered_finish _)
  | f256Div a b =>
    refine okIfAnswered_ite_neg (byte_ne_zero_of_toNat_beq habsent) (okIfAnswered_ite (okIfAnswered_ok s _) ?_)
    split
    · exact okIfAnswered_ok _ _
    · exact fun t h => nomatch h
  | f256Mul2 a b => exact okIfAnswered_finish _
  | f256Pow a e =>
    exact okIfAnswered_ite (okIfAnswered_ok s _) (okIfAnswered_ite (okIfAnswered_ok s _) (okIfAnswered_finish _))
  | f256Pow2 a e => exact okIfAnswered_ite (okIfAnswered_ok s _) (okIfAnswered_finish _)
  | f256Log a => exact okIfAnswered_checkDomain (nonzero_eq_logOperandValid a ▸ hwf) (okIfAnswered_finish _)
  | f256Exp e => exact okIfAnswered_checkDomain (ne_255_eq_expOperandValid e ▸ hwf) (okIfAnswered_finish _)

/-! ### Every execution -/

theorem State.answered_last {s u : State} {r r' : Response} (h : (u.answered r').responses = s.responses ++ [r]) :
    r = r' := by
  simpa using (List.append_inj_right' h rfl).symm

/-- Every response has the status the lists say. -/
theorem exec_status {i : Instr} {s t : State} {r : Response} (hexec : exec i s = .next t)
    (hr : t.responses = s.responses ++ [r]) : r.st = i.listedStatus s.config := by
  cases hwf : i.wellFormed s.config with
  | false =>
    rw [exec_of_not_wellFormed hwf] at hexec
    cases hexec
    rw [State.answered_last hr, Instr.listedStatus_eq_domain_iff.2 hwf]
  | true =>
    cases habsent : i.absentCause s.config with
    | true =>
      rw [exec_of_absentCause habsent] at hexec
      cases hexec
      rw [State.answered_last hr, Instr.listedStatus_eq_absent_iff.2 ⟨hwf, habsent⟩]
    | false =>
      obtain ⟨u, v, rfl⟩ := exec_okIfAnswered hwf habsent t hexec
      rw [State.answered_last hr, Instr.listedStatus_eq_ok hwf habsent]

theorem State.answers_status {s : State} {i : Instr} {r : Response} (h : s.answers i = [r]) :
    r.st = i.listedStatus s.config := by
  unfold State.answers at h
  split at h
  next t hexec =>
    obtain ⟨-, -, r', hr'⟩ := (exec_answersOnce hexec).frame
    obtain rfl : r' = r := by simpa [hr'] using h
    exact exec_status hexec hr'
  next => cases h
  next => cases h

/-- In a state that meets the invariant no table read stops the model, so every operation answers as the lists say. -/
theorem exec_listedStatus_of_inv {s : State} (hs : s.Inv) (i : Instr) :
    ∃ (t : State) (v : Byte), exec i s = .next t ∧ t.responses = s.responses ++ [⟨i.listedStatus s.config, v⟩] := by
  obtain ⟨⟨st, v⟩, -, hexec⟩ := exec_of_inv hs i
  obtain ⟨-, -, r, hr⟩ := (exec_answersOnce hexec).frame
  exact ⟨_, r.r, hexec, exec_status hexec hr ▸ hr⟩

/-! ### The fault record -/

theorem State.faultSeen_of_responses {s t : State} {r : Response} (h : t.responses = s.responses ++ [r]) :
    t.faultSeen = (s.faultSeen || r.st.isFault) := by
  simp [State.faultSeen, h]

@[simp] theorem State.faultSeen_answered (s : State) (r : Response) :
    (s.answered r).faultSeen = (s.faultSeen || r.st.isFault) := State.faultSeen_of_responses rfl

end Sys2Proof.Machine
end

section
/-!
The obligations of the exceptions family (60_exceptions.md).
-/
namespace Sys2Proof.Machine

/-- Settles O41: a request changes the tables only with a present result, and its response is well formed. -/
theorem faultsAndAbsentsLeaveNoTrace : Obligations.FaultsAndAbsentsLeaveNoTrace := by
  intro s t w rest r hin hstep hr hst
  rcases step_cases hstep with ⟨hin', -⟩ | ⟨rest', hin', -⟩ | ⟨w', rest', hin', r', hwf, hanswer⟩
  · simp [hin] at hin'
  · simp [hin] at hin'
  · obtain ⟨rfl, rfl⟩ : w = w' ∧ rest = rest' := by simpa [hin] using hin'
    rcases hanswer with rfl | ⟨hok, rfl⟩
    · obtain rfl := State.answered_last hr
      exact ⟨Response.r_eq_zero_of_wf hwf hst, rfl⟩
    · obtain rfl := State.answered_last hr
      exact absurd hok hst

/-- Settles O42: the causes fail the check, and a DOMAIN response has its cause on the list. -/
theorem domainExactlyOnOperandsOutsideTheDomain : Obligations.DomainExactlyOnOperandsOutsideTheDomain := by
  intro s i
  refine ⟨fun hout => ⟨exec_of_not_wellFormed hout, by simp [Status.isFault]⟩, fun hwf v hdomain => ?_⟩
  have hout := Instr.listedStatus_eq_domain_iff.1 (State.answers_status hdomain).symm
  simp [hwf] at hout

/-- Settles O43: the causes are met first, and an ABSENT response has its cause on the list. -/
theorem absentExactlyForTheListedCauses : Obligations.AbsentExactlyForTheListedCauses := by
  intro s i
  refine ⟨fun hcause => ⟨exec_of_absentCause hcause, by simp [Status.isFault]⟩, fun hno v habsent => ?_⟩
  obtain ⟨-, hcause⟩ := Instr.listedStatus_eq_absent_iff.1 (State.answers_status habsent).symm
  simp [hno] at hcause

/-- Settles O44: under the invariant every operation answers, with the status the lists leave. -/
theorem okOnAllOtherOperands : Obligations.OkOnAllOtherOperands := by
  intro s i hs hwf habsent
  rw [← Instr.listedStatus_eq_ok hwf habsent]
  exact exec_listedStatus_of_inv hs i

/-- Settles O46: no step removes a response, and the one an in-domain request adds is OK or ABSENT. -/
theorem faultRecordKeptAndUntouchedByInDomainRequests :
    Obligations.FaultRecordKeptAndUntouchedByInDomainRequests := by
  constructor
  · intro s t hstep hseen
    rcases step_cases hstep with ⟨-, rfl⟩ | ⟨rest, -, rfl⟩ | ⟨w, rest, -, hanswer⟩
    · exact hseen
    · exact hseen
    · obtain ⟨-, -, r, hr⟩ := hanswer.frame
      have hkept : ({ s with input := rest } : State).faultSeen = true := hseen
      rw [State.faultSeen_of_responses hr, hkept, Bool.true_or]
  · intro s w rest i hs hin hw hwf
    obtain ⟨t, v, hexec, hr⟩ := exec_listedStatus_of_inv (s := { s with input := rest }) hs i
    refine ⟨t, (step_decoded hin hw).trans hexec, ?_⟩
    rw [State.faultSeen_of_responses hr, Instr.listedStatus_isFault_of_wellFormed hwf, Bool.or_false]
    rfl

/-- Settles O54: the two kinds of request are answered ILLEGAL and DOMAIN. -/
theorem faultyRequestsEnterTheFaultRecord : Obligations.FaultyRequestsEnterTheFaultRecord := by
  obtain ⟨answeredIllegal, -, -⟩ := illegalRequestsAnsweredIllegal
  rintro s w rest hin (hillegal | ⟨i, hw, hout⟩)
  · exact ⟨_, answeredIllegal s w rest hin hillegal, by simp [Status.isFault]⟩
  · have hexec := exec_of_not_wellFormed (s := { s with input := rest }) hout
    exact ⟨_, (step_decoded hin hw).trans hexec, by simp [Status.isFault]⟩

end Sys2Proof.Machine
end
